-- ==== Sys2Proof/Word.lean ====
section
/-! DEFINITION. The bit and the two word types of the command port
(spec/00_scope.md R10, spec/30_encoding.md R70). -/

namespace Sys2Proof

/-- A bit of R10, `{0, 1}`: `false` is 0 and `true` is 1. -/
abbrev Bit := Bool

/-- The 24-bit command word of R70 and R71: `opc` in bits 23..16, `opnd` in bits 15..0. -/
abbrev CmdWord := BitVec 24

/-- The 17-bit response word of R70 and R74: `illegal` in bit 16, `data` in bits 15..0. -/
abbrev RspWord := BitVec 17

end Sys2Proof
end

