-- ==== Sys2Proof/Config.lean ====
section
/-! DEFINITION. What is fixed when an instance of the block is built (spec/00_scope.md R9,
spec/10_state.md R36 and R39), and the free values: what the spec lets the environment choose. -/

namespace Sys2Proof

/-- R3: the two variants of the block; an instance is exactly one of them for its whole life. -/
inductive Link where
  | jtag4
  | sbw
deriving DecidableEq, Repr

/-- R112, decision D8: where the SBW TDO slot takes its sample. -/
inductive TdoSample where
  | afterPulse
  | duringLow
deriving DecidableEq, Repr

/-- R107, decision D14: the board's binding of the logical `TCLK` line of the 4-wire variant. -/
inductive TclkBinding where
  | dedicated
  | sharedWithTdi
deriving DecidableEq, Repr

/-- The logical lines: R25 (`TCK`, `TMS`, `TDI`, `TDO`, `TCLK`) and R26 (`SBWTCK`, `SBWTDIO`). -/
inductive Line where
  | tck
  | tms
  | tdi
  | tdo
  | tclk
  | sbwtck
  | sbwtdio
deriving DecidableEq, Repr

/-- The configuration record `cfg` of R39. `pinMap` is R9's `PIN_MAP`, the pin assignment table from a logical
line to the number of a physical line; no rule depends on its value (R52). -/
structure Config where
  link           : Link
  pinMap         : List (Line × Nat)
  tclkLatchReset : Bit
  tdoSample      : TdoSample
  tclkBinding    : TclkBinding
deriving DecidableEq, Repr

/-- R9 `IR_WIDTH`. -/
def Config.irWidth : Nat := 8

/-- R9 `DR_WIDTHS`. -/
def Config.drWidths : List Nat := [8, 16]

/-- The instance `State.reset` stands in. `tdoSample` and `tclkBinding` are the spec's defaults (R9).
DESIGN CHOICE (log entry 2): the spec has no default for `LINK`, `PIN_MAP` and `TCLK_LATCH_RESET`. -/
def Config.standard : Config :=
  { link := .sbw, pinMap := [], tclkLatchReset := false, tdoSample := .afterPulse, tclkBinding := .dedicated }

/-- R29, U3: the bit a `Sample` returns where `State.answers` names none. FREE VALUE (log entry 3). -/
opaque Config.freeSample : Nat → Bit

/-- R37, U2: the level of each output line between a reset and construction. FREE VALUE (log entry 5). -/
opaque Config.freeLevel : Nat → Line → Bit

/-- R37, U2: whether `SBWTDIO` is driven between a reset and construction. FREE VALUE (log entry 5). -/
opaque Config.freeDriven : Nat → Bit

end Sys2Proof
end

