-- ==== Sys2Proof/Syntax.lean ====
section
/-! DEFINITION. The five operations (spec/30_encoding.md R80), their mnemonics, and a line of the assembler
syntax (R77). -/

namespace Sys2Proof

/-- R80, the operation type: one constructor per row of spec/opcode_table.json. -/
inductive Instr where
  | irShift (d : BitVec 8)
  | drShift8 (d : BitVec 8)
  | drShift16 (d : BitVec 16)
  | tclkClear
  | tclkSet
deriving DecidableEq, Repr

/-- R77: the five mnemonics. -/
inductive Mnemonic where
  | irShift
  | drShift8
  | drShift16
  | tclkClear
  | tclkSet
deriving DecidableEq, Repr

/-- The row of the opcode table an operation stands in. -/
def Instr.mnemonic : Instr → Mnemonic
  | .irShift _ => .irShift
  | .drShift8 _ => .drShift8
  | .drShift16 _ => .drShift16
  | .tclkClear => .tclkClear
  | .tclkSet => .tclkSet

/-- R58, R77: the width of the mnemonic's operand and result, `none` where it takes and returns nothing. -/
def Mnemonic.operandWidth : Mnemonic → Option Nat
  | .irShift => some 8
  | .drShift8 => some 8
  | .drShift16 => some 16
  | .tclkClear => none
  | .tclkSet => none

/-- One line of a program listing (R77): the mnemonic, its unsigned operand if one is written, and the result
written after `->` if one is. The result is a remark of the listing; it has no part in the command word. -/
structure AsmLine where
  mnemonic : Mnemonic
  operand  : Option Nat
  result   : Option Nat
deriving DecidableEq, Repr

end Sys2Proof
end

