-- ==== Sys2Proof/WellFormed.lean ====
section
/-! DEFINITION. The checks: which command words are legal (spec/30_encoding.md R75), which assembler lines are
(R77), and which configurations have a meaning (spec/40_tap_cycle.md R107). An `Instr` needs no check: its operand's width
is its type's (R80). -/

namespace Sys2Proof

/-- R71: `cmd[23:16]`. -/
def opcOf (w : CmdWord) : BitVec 8 := w.extractLsb' 16 8

/-- R71: `cmd[15:0]`. -/
def opndOf (w : CmdWord) : BitVec 16 := w.extractLsb' 0 16

/-- R75, in its own words: the opcode is one of the five, bits 15..8 of `opnd` are 0 under opcodes 0x00 and 0x01, and
all of `opnd` is 0 under opcodes 0x03 and 0x04. -/
def wordLegal (w : CmdWord) : Bool :=
  (opcOf w).toNat ≤ 4
    && !((opcOf w == 0x00#8 || opcOf w == 0x01#8) && (opndOf w).extractLsb' 8 8 != 0x00#8)
    && !((opcOf w == 0x03#8 || opcOf w == 0x04#8) && opndOf w != 0x0000#16)

/-- Whether a written operand or result is there exactly where a value of width `width` is wanted, and fits it. -/
def numberFits (width : Option Nat) (n : Option Nat) : Bool :=
  match width, n with
  | none, none => true
  | some k, some v => v < 2 ^ k
  | none, some _ => false
  | some _, none => false

/-- R77: a shift takes one operand that fits its width, a TCLK operation takes none. DESIGN CHOICE (log entry 13): R77 makes
no error of a result after `->`; the model also rejects a line whose written result does not fit the operation's width, or
stands after a TCLK operation. -/
def AsmLine.wf (l : AsmLine) : Bool :=
  numberFits l.mnemonic.operandWidth l.operand
    && (l.result == none || numberFits l.mnemonic.operandWidth l.result)

/-- R107, R194: `JTAG4` with the logical `TCLK` bound to the `TDI` pin has no meaning. -/
def Config.wf (c : Config) : Bool := !(c.link == .jtag4 && c.tclkBinding == .sharedWithTdi)

end Sys2Proof
end

