-- ==== Sys2Proof/Decode.lean ====
section
/-! DEFINITION. The decoder and the encoder of the command word (spec/30_encoding.md R71 to R76, R79), and the
assembler of R77. -/

namespace Sys2Proof

/-- A row of R72: a word `w` selects it when `w &&& mask = pattern`. -/
structure OpRow where
  mnemonic : Mnemonic
  mask     : CmdWord
  pattern  : CmdWord
deriving DecidableEq, Repr

/-- The opcode map of R72 (the copy of spec/opcode_table.json). -/
def opRows : List OpRow :=
  [ ⟨.irShift,   0xFFFF00#24, 0x000000#24⟩,
    ⟨.drShift8,  0xFFFF00#24, 0x010000#24⟩,
    ⟨.drShift16, 0xFF0000#24, 0x020000#24⟩,
    ⟨.tclkClear, 0xFFFFFF#24, 0x030000#24⟩,
    ⟨.tclkSet,   0xFFFFFF#24, 0x040000#24⟩ ]

/-- R72: whether the word selects the row. -/
def selectsRow (w : CmdWord) (r : OpRow) : Bool := w &&& r.mask == r.pattern

/-- R73: operand assembly, the `Op` column of R72; no extension, scaling or shifting. -/
def operandsOf (m : Mnemonic) (w : CmdWord) : Instr :=
  match m with
  | .irShift => .irShift (w.extractLsb' 0 8)
  | .drShift8 => .drShift8 (w.extractLsb' 0 8)
  | .drShift16 => .drShift16 (w.extractLsb' 0 16)
  | .tclkClear => .tclkClear
  | .tclkSet => .tclkSet

/-- R79: the decoder, total on all 2^24 words; `none` is `Illegal` (R75). -/
def decode (w : CmdWord) : Option Instr :=
  (opRows.find? (selectsRow w)).map fun r => operandsOf r.mnemonic w

/-- R79: the encoder. -/
def encode : Instr → CmdWord
  | .irShift d => 0x00#8 ++ 0x00#8 ++ d
  | .drShift8 d => 0x01#8 ++ 0x00#8 ++ d
  | .drShift16 d => 0x02#8 ++ d
  | .tclkClear => 0x030000#24
  | .tclkSet => 0x040000#24

/-- The table numbers a command's bits as R71 does (bit 0 is the least significant of the one 24-bit word). A word with
a bit above 23 is no command word. -/
def decodeTableWord (nbits w : Nat) : Option Instr :=
  if w % 2 ^ nbits < 2 ^ 24 then decode (BitVec.ofNat 24 (w % 2 ^ nbits)) else none

/-! The assembler (R77). -/

/-- R77: the spellings of the digits 0 to 15, a digit's value being its place. DESIGN CHOICE (log entry 13): hexadecimal
letters of either case. -/
def digitSpellings : List (List Char) :=
  [['0'], ['1'], ['2'], ['3'], ['4'], ['5'], ['6'], ['7'], ['8'], ['9']] ++
  [['a', 'A'], ['b', 'B'], ['c', 'C'], ['d', 'D'], ['e', 'E'], ['f', 'F']]

/-- The value of a digit, decimal or hexadecimal. -/
def digitValue (c : Char) : Option Nat := digitSpellings.findIdx? fun spellings => spellings.contains c

/-- Reads the digits left to right, from the value `acc` read so far; `none` at the first character that is no digit of
the base. -/
def readDigits (base acc : Nat) : List Char → Option Nat
  | [] => some acc
  | c :: cs =>
    match digitValue c with
    | some v => if v < base then readDigits base (acc * base + v) cs else none
    | none => none

/-- R77: decimal, or hexadecimal with a `0x` prefix; at least one digit. -/
def readNumber : List Char → Option Nat
  | [] => none
  | ['0', 'x'] => none
  | '0' :: 'x' :: c :: cs => readDigits 16 0 (c :: cs)
  | c :: cs => readDigits 10 0 (c :: cs)

/-- R77: the mnemonic a word of the line spells, in lower case. -/
def readMnemonic (cs : List Char) : Option Mnemonic :=
  if cs = ['i', 'r', '_', 's', 'h', 'i', 'f', 't'] then some .irShift
  else if cs = ['d', 'r', '_', 's', 'h', 'i', 'f', 't', '_', '8'] then some .drShift8
  else if cs = ['d', 'r', '_', 's', 'h', 'i', 'f', 't', '_', '1', '6'] then some .drShift16
  else if cs = ['t', 'c', 'l', 'k', '_', 'c', 'l', 'e', 'a', 'r'] then some .tclkClear
  else if cs = ['t', 'c', 'l', 'k', '_', 's', 'e', 't'] then some .tclkSet
  else none

/-- The words of a line, which blanks separate; `cur` is the word being read, last character first. -/
def splitWords (cur : List Char) : List Char → List (List Char)
  | [] => if cur = [] then [] else [cur.reverse]
  | c :: cs =>
    if c = ' ' then (if cur = [] then splitWords [] cs else cur.reverse :: splitWords [] cs)
    else splitWords (c :: cur) cs

/-- R77: the line the words of a program listing stand for. -/
def readWords : List (List Char) → Option AsmLine
  | [m] => do pure ⟨← readMnemonic m, none, none⟩
  | [m, n] => do pure ⟨← readMnemonic m, some (← readNumber n), none⟩
  | [m, n, ['-', '>'], r] => do pure ⟨← readMnemonic m, some (← readNumber n), some (← readNumber r)⟩
  | _ => none

/-- R77: the operation a line stands for; `none` is an assembly error. -/
def assemble (l : AsmLine) : Option Instr :=
  if l.wf then
    match l.mnemonic with
    | .irShift => some (.irShift (BitVec.ofNat 8 (l.operand.getD 0)))
    | .drShift8 => some (.drShift8 (BitVec.ofNat 8 (l.operand.getD 0)))
    | .drShift16 => some (.drShift16 (BitVec.ofNat 16 (l.operand.getD 0)))
    | .tclkClear => some .tclkClear
    | .tclkSet => some .tclkSet
  else none

/-- R77: the command word of one line of text. -/
def assembleText (cs : List Char) : Option CmdWord :=
  (readWords (splitWords [] cs)).bind fun l => (assemble l).map encode

end Sys2Proof
end

