-- ==== Sys2Proof/Machine/State.lean ====
section
/-! DEFINITION. The state of the block (spec/10_state.md R20 to R39), the environment's part of it that the spec's rules read
(spec/20_memory.md R62, spec/70_reset_and_hazards.md R184), what ends a step, and the state after reset (R37). -/

namespace Sys2Proof.Machine

/-- R100: the sixteen states of the TAP. -/
inductive TapState where
  | testLogicReset
  | runTestIdle
  | selectDRScan
  | captureDR
  | shiftDR
  | exit1DR
  | pauseDR
  | exit2DR
  | updateDR
  | selectIRScan
  | captureIR
  | shiftIR
  | exit1IR
  | pauseIR
  | exit2IR
  | updateIR
deriving DecidableEq, Repr

/-- R26: the direction of `SBWTDIO`: driven by the block (`Out`) or released (`In`). -/
inductive Dir where
  | output
  | input
deriving DecidableEq, Repr

/-- R27: the pin events. -/
inductive PinEvent where
  | set (line : Line) (b : Bit)
  | dir (line : Line) (d : Dir)
  | sample (line : Line) (b : Bit)
deriving DecidableEq, Repr

/-- R25: the level last driven on each output line of the 4-wire variant. -/
structure Jtag4Pins where
  tck  : Bit
  tms  : Bit
  tdi  : Bit
  tclk : Bit
deriving DecidableEq, Repr

/-- R26: the clock line, and the output register and direction of the data line of the Spy-Bi-Wire variant. -/
structure SbwPins where
  sbwtck  : Bit
  tdioOut : Bit
  tdioDir : Dir
deriving DecidableEq, Repr

/-- R39: the pin registers of the instance's variant. -/
inductive Pins where
  | jtag4 (p : Jtag4Pins)
  | sbw (p : SbwPins)
deriving DecidableEq, Repr

/-- R108, R14 "phase, slot": the phases (a) to (d) of an SBW cycle. -/
inductive Slot where
  | tms
  | tdi
  | tdo
  | restore
deriving DecidableEq, Repr

/-- The launch premises on the target (R184), which the block cannot observe: `tapIdle` is `L_target_tap`, and `tclk` is
the level `L_tclk` speaks of, the one the target has seen last. The environment's state, not the block's (log entry 6). -/
structure Target where
  tapIdle : Bool
  tclk    : Bit
deriving DecidableEq, Repr

/-- What the environment does to the block (R62, R165, R182, R183), one step each. -/
inductive Input where
  /-- The host presents a command word (R70). -/
  | command (w : CmdWord)
  /-- A power-on or a watchdog reset while no command is in flight (R165). -/
  | reset
  /-- The host presents a command word, and a reset falls after its first `k` pin events (R165). -/
  | resetDuring (w : CmdWord) (k : Nat)
  /-- The link layer is constructed (R182). -/
  | construct
  /-- The device layer's acquisition sequence runs to its end (R183). -/
  | acquire
deriving DecidableEq, Repr

/-- Why a step stops in a fault. The block has no fault outcome (R13, R160; spec/93_implementation_defined.md), so the type
has no constructor: nothing raises one. -/
inductive Fault where
deriving DecidableEq, Repr

/-- Why the model gives an input no meaning (R13). Every one is safe: the spec gives the input no meaning either, and the
model stops where a device might go on. -/
inductive Refusal where
  /-- Raised by an arm of `exec` whose instruction has no meaning yet; no arm does. Safe. -/
  | notModelled (mnemonic : String)
  /-- `L_idle` fails, or the port is offered a command or an acquisition while a command is in flight (R70, R184, U12). Safe. -/
  | portBusy
  /-- `L_tap` fails: the tracker is not in Run-Test/Idle (R184, U8). Safe. -/
  | tapNotIdle
  /-- `L_target_tap` fails: the target's TAP is not known to be in Run-Test/Idle (R165, R184, U8). Safe. -/
  | targetTapNotIdle
  /-- The link layer has not been constructed since the last reset (R183). Safe. -/
  | notConstructed
  /-- `L_pins` fails: the lines are not in the idle pattern (R184, U8). Safe. -/
  | pinsNotIdle
  /-- `L_tclk` fails: the target has not seen the logical TCLK level (R184, U8). Safe. -/
  | targetTclkDiffers
  /-- `L_binding` fails: `JTAG4` with `TCLK` on the `TDI` pin (R107, R194, U9). Safe. -/
  | tclkSharedWithTdi
  /-- A second construction with no reset between (R182 gives construction one place, after a reset). Safe. -/
  | alreadyConstructed
deriving DecidableEq, Repr

/-- The state. The fields up to `trace` are the record `s` of R39 with its parameter `cfg`; `cycle` and `slot` are the rest of
R32's hidden state. `constructed` is R182's. The fields after it are the environment's or the model's own. -/
@[ext]
structure State where
  /-- R36: the instance's constants. -/
  cfg         : Config
  /-- R31: the tracker. -/
  tap         : TapState
  /-- R23: the latched TCLK flag; it means something in the `SBW` variant only. -/
  tclkLatch   : Bit
  /-- R25, R26: the pin registers. -/
  pins        : Pins
  /-- R20: the operand of the running operation. -/
  opnd        : BitVec 16
  /-- R20: the result accumulator of the running operation. -/
  acc         : BitVec 16
  /-- R32: the index `i` of the next data cycle of the running operation. -/
  cycle       : Nat
  /-- R32: the slot of the running SBW cycle. -/
  slot        : Slot
  /-- R32, R70: a command has been accepted and not answered. -/
  busy        : Bool
  /-- R30: every event since launch, oldest first. -/
  trace       : List PinEvent
  /-- R182, R183: the link layer has been constructed since the last reset. -/
  constructed : Bool
  /-- R184: what is known of the target. -/
  target      : Target
  /-- The environment's coming inputs, the next one first (log entry 4). -/
  inputs      : List Input
  /-- R70, R186: the responses the host has been given, oldest first (log entry 4). -/
  responses   : List RspWord
  /-- R29: the target's coming answers to `Sample`, the next one first (log entry 3). -/
  answers     : List Bit
  /-- MODEL'S OWN: how many free values have been drawn (log entry 3). -/
  draws       : Nat
deriving DecidableEq, Repr

/-- R37, R182: the idle pattern construction drives onto the lines. -/
def idlePins (c : Config) : Pins :=
  match c.link with
  | .jtag4 => .jtag4 { tck := true, tms := false, tdi := false, tclk := c.tclkLatchReset }
  | .sbw => .sbw { sbwtck := true, tdioOut := c.tclkLatchReset, tdioDir := .output }

/-- R37: an instance after a reset and after the construction of its link layer, field by field. The target has not been
acquired (R183). DESIGN CHOICE (log entry 7): the values of `opnd`, `acc`, `cycle` and `slot`, which R37 leaves unspecified. -/
def State.resetOf (c : Config) : State :=
  { cfg := c, tap := .runTestIdle, tclkLatch := c.tclkLatchReset, pins := idlePins c,
    opnd := 0, acc := 0, cycle := 0, slot := .tms, busy := false, trace := [], constructed := true,
    target := { tapIdle := false, tclk := c.tclkLatchReset },
    inputs := [], responses := [], answers := [], draws := 0 }

/-- The machine right after reset (R37), in the instance log entry 2 names. -/
def State.reset : State := State.resetOf Config.standard

end Sys2Proof.Machine
end

