-- ==== Sys2Proof/Machine/Flags.lean ====
section
/-! DEFINITION. The block's one status flag, the latched TCLK level (spec/10_state.md R23, R24, R35). -/

namespace Sys2Proof.Machine

/-- R35: the logical TCLK level. It reads the variant off the pin registers, which R39 makes agree with `cfg.LINK`. -/
def logicalTclk (s : State) : Bit :=
  match s.pins with
  | .jtag4 p => p.tclk
  | .sbw _ => s.tclkLatch

/-- R150: `s.tclk_latch <- v`. -/
def writeLatch (v : Bit) (s : State) : State := { s with tclkLatch := v }

end Sys2Proof.Machine
end

