-- ==== Sys2Proof/Machine/Operands.lean ====
section
/-! DEFINITION. Operands and results: which operand bit a data cycle carries, the accumulator, and the response word
(spec/20_memory.md R55 and R56, spec/30_encoding.md R74, spec/41_shift.md R130 and R134). -/

namespace Sys2Proof.Machine

/-- R55 "In": data cycle `i` presents operand bit `i`. -/
def operandBit (opnd : BitVec 16) (i : Nat) : Bit := opnd.getLsbD i

/-- R55 "Out", R130: `acc <- (acc << 1) | zext_16(b)`. -/
def accumulate (acc : BitVec 16) (b : Bit) : BitVec 16 := (acc <<< 1) ||| (BitVec.ofBool b).setWidth 16

/-- R130: whether data cycle `i` of `n` is the last, which raises TMS. -/
def lastCycle (n i : Nat) : Bit := i + 1 == n

/-- R74: the response of a legal command, `0 ++ data`. -/
def okResponse (data : BitVec 16) : RspWord := 0#1 ++ data

/-- R74, R161: the response of an illegal word, `illegal = 1` and `data = 0x0000`. -/
def illegalResponse : RspWord := 1#1 ++ 0x0000#16

/-- R74: `rsp[16]`. -/
def rspIllegal (r : RspWord) : Bit := r.getLsbD 16

/-- R74: `rsp[15:0]`. -/
def rspData (r : RspWord) : BitVec 16 := r.extractLsb' 0 16

end Sys2Proof.Machine
end

