-- ==== Sys2Proof/Machine/Ops.lean ====
section
/-! DEFINITION. The named operations on the state: the tracker's next state (spec/40_tap_cycle.md R101), `Emit` and `Sample`
(spec/10_state.md R28, R29), the launch premises (spec/70_reset_and_hazards.md R184), accepting, answering and refusing a
command (spec/30_encoding.md R70, spec/60_exceptions.md R161), and reset, construction and acquisition (R165, R182, R183). -/

namespace Sys2Proof.Machine

/-- R101: `TapNext`. -/
def tapNext : TapState → Bit → TapState
  | .testLogicReset, t => if t then .testLogicReset else .runTestIdle
  | .runTestIdle, t => if t then .selectDRScan else .runTestIdle
  | .selectDRScan, t => if t then .selectIRScan else .captureDR
  | .captureDR, t => if t then .exit1DR else .shiftDR
  | .shiftDR, t => if t then .exit1DR else .shiftDR
  | .exit1DR, t => if t then .updateDR else .pauseDR
  | .pauseDR, t => if t then .exit2DR else .pauseDR
  | .exit2DR, t => if t then .updateDR else .shiftDR
  | .updateDR, t => if t then .selectDRScan else .runTestIdle
  | .selectIRScan, t => if t then .testLogicReset else .captureIR
  | .captureIR, t => if t then .exit1IR else .shiftIR
  | .shiftIR, t => if t then .exit1IR else .shiftIR
  | .exit1IR, t => if t then .updateIR else .pauseIR
  | .pauseIR, t => if t then .exit2IR else .pauseIR
  | .exit2IR, t => if t then .updateIR else .shiftIR
  | .updateIR, t => if t then .selectDRScan else .runTestIdle

/-- R28: what an event does to the pin registers. An event R27 does not allow for the variant has no register to write. -/
def applyEvent (e : PinEvent) (p : Pins) : Pins :=
  match e, p with
  | .set .tck b, .jtag4 q => .jtag4 { q with tck := b }
  | .set .tms b, .jtag4 q => .jtag4 { q with tms := b }
  | .set .tdi b, .jtag4 q => .jtag4 { q with tdi := b }
  | .set .tclk b, .jtag4 q => .jtag4 { q with tclk := b }
  | .set .sbwtck b, .sbw q => .sbw { q with sbwtck := b }
  | .set .sbwtdio b, .sbw q => .sbw { q with tdioOut := b }
  | .dir .sbwtdio d, .sbw q => .sbw { q with tdioDir := d }
  | _, q => q

/-- R28: `Emit(e)`. A write of the level a line already has is still emitted. -/
def emit (e : PinEvent) (s : State) : State :=
  { s with trace := s.trace ++ [e], pins := applyEvent e s.pins }

/-- R29: the bit the target gives to the sample after the next `j` ones: `answers` in order, then free values. -/
def answerAt (j : Nat) (s : State) : Bit :=
  match s.answers[j]? with
  | some b => b
  | none => Config.freeSample (s.draws + (j - s.answers.length))

/-- The environment's side of one `Sample`: the answer is used up. -/
def useAnswer (s : State) : State :=
  match s.answers with
  | [] => { s with draws := s.draws + 1 }
  | _ :: bs => { s with answers := bs }

/-- The environment's side of `m` samples. -/
def useAnswers : Nat → State → State
  | 0, s => s
  | m + 1, s => useAnswers m (useAnswer s)

/-- R29: `b <- Sample(line)`. The event is appended to the trace, and no pin register changes. -/
def sample (l : Line) (s : State) : Bit × State :=
  (answerAt 0 s, useAnswer { s with trace := s.trace ++ [.sample l (answerAt 0 s)] })

/-- R32: the slot of the SBW cycle that begins. -/
def enterSlot (x : Slot) (s : State) : State := { s with slot := x }

/-- `L_pins` of R184: the pin clauses of the idle invariant of the instance's variant (R33, R34). -/
def pinsIdle (s : State) : Bool :=
  match s.cfg.link, s.pins with
  | .jtag4, .jtag4 p => p.tck && !p.tms
  | .sbw, .sbw p => p.sbwtck && p.tdioDir == .output && p.tdioOut == s.tclkLatch
  | .jtag4, .sbw _ => false
  | .sbw, .jtag4 _ => false

/-- R184: the first premise that fails, in the order of the rule's table; `none` in a launch state.
DESIGN CHOICE (log entry 10): the order, where several fail. -/
def launchRefusal (s : State) : Option Refusal :=
  if s.busy then some .portBusy
  else if s.tap ≠ .runTestIdle then some .tapNotIdle
  else if s.target.tapIdle = false then some .targetTapNotIdle
  else if s.constructed = false then some .notConstructed
  else if pinsIdle s = false then some .pinsNotIdle
  else if s.target.tclk ≠ logicalTclk s then some .targetTclkDiffers
  else if s.cfg.wf = false then some .tclkSharedWithTdi
  else none

/-- R70: a command is accepted. -/
def accept (s : State) : State := { s with busy := true }

/-- R70: the response is returned and the port is free. The target has seen the operation to its end (`L_target_tap`, `L_tclk`
of R184: "then every operation"; log entry 6). -/
def respond (r : RspWord) (s : State) : State :=
  { s with busy := false, responses := s.responses ++ [r], target := { s.target with tclk := logicalTclk s } }

/-- R184, R70: an operation is performed whole from a launch state (R32) and refused from any other. -/
def perform (op : State → RspWord × State) (s : State) : Host.Outcome State Fault Refusal :=
  match launchRefusal s with
  | some r => .refused r
  | none => .next (respond (op (accept s)).1 (op (accept s)).2)

/-- R161: `raise Refuse(IllegalCommand)`, the block's only counterpart of taking an exception: the word is answered, nothing
else changes. R168: there is no return from it. -/
def refuseIllegal (s : State) : Host.Outcome State Fault Refusal :=
  if s.busy then .refused .portBusy
  else .next { s with responses := s.responses ++ [illegalResponse] }

/-- R37, U2: the pin registers between a reset and construction, at levels nothing constrains. -/
def unconstructedPins (c : Config) (n : Nat) : Pins :=
  match c.link with
  | .jtag4 => .jtag4 { tck := Config.freeLevel n .tck, tms := Config.freeLevel n .tms,
                       tdi := Config.freeLevel n .tdi, tclk := Config.freeLevel n .tclk }
  | .sbw => .sbw { sbwtck := Config.freeLevel n .sbwtck, tdioOut := Config.freeLevel n .sbwtdio,
                   tdioDir := if Config.freeDriven n then .output else .input }

/-- R165: a reset. Every field of the block takes its reset value (R37); the lines are not yet driven (R182); nothing more is
known of the target. `cfg` is the instance's; what the environment has been answered and does next is the environment's. -/
def hardReset (s : State) : State :=
  { State.resetOf s.cfg with
    pins := unconstructedPins s.cfg s.draws, constructed := false,
    target := { tapIdle := false, tclk := s.target.tclk },
    inputs := s.inputs, responses := s.responses, answers := s.answers, draws := s.draws + 1 }

/-- R182: the idle pattern driven onto the lines; no event is emitted, and the target's TCLK input sees the level. -/
def driveIdlePattern (s : State) : State :=
  { s with constructed := true, pins := idlePins s.cfg, target := { s.target with tclk := s.cfg.tclkLatchReset } }

/-- R182: construction has one place, after a reset; a configuration without a meaning is refused (R107). -/
def construct (s : State) : Host.Outcome State Fault Refusal :=
  if s.constructed then .refused .alreadyConstructed
  else if s.cfg.wf = false then .refused .tclkSharedWithTdi
  else .next (driveIdlePattern s)

/-- R183: what the acquisition sequence, whose content is out of scope (R7), leaves: the target's TAP in Run-Test/Idle, its
TCLK input at the logical level, and the lines as they were (log entry 8). -/
def acquireTarget (s : State) : State := { s with target := { tapIdle := true, tclk := logicalTclk s } }

/-- R183: acquisition comes after construction, and not while a command is in flight. -/
def acquire (s : State) : Host.Outcome State Fault Refusal :=
  if s.busy then .refused .portBusy
  else if s.constructed = false then .refused .notConstructed
  else .next (acquireTarget s)

end Sys2Proof.Machine
end

