-- ==== Sys2Proof/Machine/Tap.lean ====
section
/-! DEFINITION. The TAP cycle, the primitive all five operations are built from, in both line encodings
(spec/40_tap_cycle.md R103 to R114). -/

namespace Sys2Proof.Machine

/-- R105: the events of a data cycle's TDI; a navigation cycle does not write the line (R106). -/
def driveTdi (tdi : Option Bit) (s : State) : State :=
  match tdi with
  | some d => emit (.set .tdi d) s
  | none => s

/-- R105: `Cycle4(tms, tdi)`. -/
def cycle4 (tms : Bit) (tdi : Option Bit) (s : State) : Bit × State :=
  sample .tdo (emit (.set .tck true) (emit (.set .tck false) (driveTdi tdi (emit (.set .tms tms) s))))

/-- R109: `Pulse()`, one low and high pulse on the shared clock line. -/
def pulse (s : State) : State := emit (.set .sbwtck true) (emit (.set .sbwtck false) s)

/-- R110: whether the slot's TMS value takes or keeps the tracker in Run-Test/Idle. -/
def idleSlot (tms : Bit) (s : State) : Bool := tapNext s.tap tms == .runTestIdle

/-- R110: `SlotTMS(tms)`, phase (a). -/
def slotTms (tms : Bit) (s : State) : State :=
  if idleSlot tms s && s.tclkLatch then
    emit (.set .sbwtck true) (emit (.set .sbwtdio false) (emit (.set .sbwtck false)
      (emit (.set .sbwtdio true) (enterSlot .tms s))))
  else pulse (emit (.set .sbwtdio tms) (enterSlot .tms s))

/-- R111: `SlotTDI(tdi)`, phase (b). A navigation cycle carries the latched level. -/
def slotTdi (tdi : Option Bit) (s : State) : State :=
  pulse (emit (.set .sbwtdio (tdi.getD s.tclkLatch)) (enterSlot .tdi s))

/-- R112: `SlotTDO()`, phase (c). -/
def slotTdo (s : State) : Bit × State :=
  let low := emit (.set .sbwtck false) (emit (.dir .sbwtdio .input) (enterSlot .tdo s))
  match s.cfg.tdoSample with
  | .duringLow => ((sample .sbwtdio low).1, emit (.set .sbwtck true) (sample .sbwtdio low).2)
  | .afterPulse => sample .sbwtdio (emit (.set .sbwtck true) low)

/-- R113: `Restore()`, phase (d). -/
def restore (s : State) : State :=
  emit (.dir .sbwtdio .output) (emit (.set .sbwtdio s.tclkLatch) (enterSlot .restore s))

/-- R114: `CycleSBW(tms, tdi)`. -/
def cycleSbw (tms : Bit) (tdi : Option Bit) (s : State) : Bit × State :=
  let r := slotTdo (slotTdi tdi (slotTms tms s))
  (r.1, restore r.2)

/-- R103: the tracker moves on after the events of the cycle. -/
def advanceTap (tms : Bit) (s : State) : State := { s with tap := tapNext s.tap tms }

/-- R103: the cycle on the lines of the instance's variant. -/
def lineCycle (tms : Bit) (tdi : Option Bit) (s : State) : Bit × State :=
  match s.cfg.link with
  | .jtag4 => cycle4 tms tdi s
  | .sbw => cycleSbw tms tdi s

/-- R103: `TapCycle(tms, tdi)`. -/
def tapCycle (tms : Bit) (tdi : Option Bit) (s : State) : Bit × State :=
  let r := lineCycle tms tdi s
  (r.1, advanceTap tms r.2)

end Sys2Proof.Machine
end

