-- ==== Sys2Proof/Machine/Shift.lean ====
section
/-! DEFINITION. The three shift operations (spec/41_shift.md R130 to R134). -/

namespace Sys2Proof.Machine

/-- R61, R130: which register of the target a shift reaches. -/
inductive ShiftKind where
  | ir
  | dr
deriving DecidableEq, Repr

/-- A navigation cycle: its sampled bit is discarded (R130). -/
def navigate (tms : Bit) (s : State) : State := (tapCycle tms none s).2

/-- R130: one turn of the loop, data cycle `i = s.cycle` of `n`. -/
def dataCycle (n : Nat) (s : State) : State :=
  let r := tapCycle (lastCycle n s.cycle) (some (operandBit s.opnd s.cycle)) s
  { r.2 with acc := accumulate r.2.acc r.1, cycle := r.2.cycle + 1 }

/-- `k` turns of the loop. -/
def dataCycles (n : Nat) : Nat → State → State
  | 0, s => s
  | k + 1, s => dataCycles n k (dataCycle n s)

/-- R130: `s.opnd <- zext_16(data)`, `s.acc <- 0`, and the first value of the loop's index. -/
def loadOperand (data : BitVec 16) (s : State) : State := { s with opnd := data, acc := 0, cycle := 0 }

/-- R130: from Run-Test/Idle to the Shift state. -/
def enterShift (kind : ShiftKind) (s : State) : State :=
  match kind with
  | .ir => navigate false (navigate false (navigate true (navigate true s)))
  | .dr => navigate false (navigate false (navigate true s))

/-- R130: from Exit1 to Run-Test/Idle. -/
def leaveShift (s : State) : State := navigate false (navigate true s)

/-- R130: `Shift(kind, N, data)`. -/
def shift (kind : ShiftKind) (n : Nat) (data : BitVec n) (s : State) : BitVec n × State :=
  let t := leaveShift (dataCycles n n (enterShift kind (loadOperand (data.setWidth 16) s)))
  (t.acc.setWidth n, t)

/-- R131: `ir_shift`. -/
def execIrShift (d : BitVec 8) (s : State) : Host.Outcome State Fault Refusal :=
  perform (fun u => let r := shift .ir Config.irWidth d u; (okResponse (r.1.setWidth 16), r.2)) s

/-- R132: `dr_shift_8`. -/
def execDrShift8 (d : BitVec 8) (s : State) : Host.Outcome State Fault Refusal :=
  perform (fun u => let r := shift .dr 8 d u; (okResponse (r.1.setWidth 16), r.2)) s

/-- R133: `dr_shift_16`. -/
def execDrShift16 (d : BitVec 16) (s : State) : Host.Outcome State Fault Refusal :=
  perform (fun u => let r := shift .dr 16 d u; (okResponse r.1, r.2)) s

end Sys2Proof.Machine
end

