-- ==== Sys2Proof/Machine/Tclk.lean ====
section
/-! DEFINITION. The two TCLK operations (spec/42_tclk.md R150 to R152). -/

namespace Sys2Proof.Machine

/-- R150, the `SBW` branch: one cycle in Run-Test/Idle, the latch written between phases (b) and (c). -/
def tclkCycle (v : Bit) (s : State) : State :=
  advanceTap false (restore (slotTdo (writeLatch v (slotTdi (some v) (slotTms false s)))).2)

/-- R150: `Tclk(v)`. -/
def tclk (v : Bit) (s : State) : State :=
  match s.cfg.link with
  | .jtag4 => emit (.set .tclk v) s
  | .sbw => tclkCycle v s

/-- R151: `tclk_clear`. -/
def execTclkClear (s : State) : Host.Outcome State Fault Refusal :=
  perform (fun u => (okResponse 0x0000#16, tclk false u)) s

/-- R152: `tclk_set`. -/
def execTclkSet (s : State) : Host.Outcome State Fault Refusal :=
  perform (fun u => (okResponse 0x0000#16, tclk true u)) s

end Sys2Proof.Machine
end

