-- ==== Sys2Proof/Machine/Dispatch.lean ====
section
/-! DEFINITION. One arm per operation of spec/30_encoding.md R80. -/

namespace Sys2Proof.Machine

def exec (i : Instr) (s : State) : Host.Outcome State Fault Refusal :=
  match i with
  | .irShift d => Sys2Proof.Machine.execIrShift d s
  | .drShift8 d => Sys2Proof.Machine.execDrShift8 d s
  | .drShift16 d => Sys2Proof.Machine.execDrShift16 d s
  | .tclkClear => Sys2Proof.Machine.execTclkClear s
  | .tclkSet => Sys2Proof.Machine.execTclkSet s

end Sys2Proof.Machine
end

