-- ==== Sys2Proof/Machine/Port.lean ====
section
/-! DEFINITION. The command port and the block's other inputs (spec/30_encoding.md R70, spec/60_exceptions.md R164 and R165,
spec/70_reset_and_hazards.md R182 and R183). -/

namespace Sys2Proof.Machine

/-- R70: `Issue(cmd)`. The legality of the word is decided first (R164). -/
def issue (w : CmdWord) (s : State) : Host.Outcome State Fault Refusal :=
  match decode w with
  | some i => exec i s
  | none => refuseIllegal s

/-- Whether an event is a sample. -/
def isSample : PinEvent → Bool
  | .sample _ _ => true
  | .set _ _ => false
  | .dir _ _ => false

/-- R165: the events of the command that `t` has completed from `s`, up to the reset that falls after the first `k`. -/
def eventsBefore (k : Nat) (s t : State) : List PinEvent := (t.trace.drop s.trace.length).take k

/-- R165: a command cut by a reset after its first `k` pin events. The target has answered the samples among them; there is
no response, and the rest never occurs. -/
def cutByReset (w : CmdWord) (k : Nat) (s : State) : Host.Outcome State Fault Refusal :=
  match issue w s with
  | .next t => .next (hardReset (useAnswers ((eventsBefore k s t).countP isSample) s))
  | .fault r => .fault r
  | .refused r => .refused r

/-- What one input of the environment does. -/
def serve (inp : Input) (s : State) : Host.Outcome State Fault Refusal :=
  match inp with
  | .command w => issue w s
  | .reset => .next (hardReset s)
  | .resetDuring w k => cutByReset w k s
  | .construct => construct s
  | .acquire => acquire s

/-- The next input is taken from the environment's list; without one the block waits (log entry 4). -/
def serveNext (s : State) : Host.Outcome State Fault Refusal :=
  match s.inputs with
  | [] => .next s
  | inp :: rest => serve inp { s with inputs := rest }

/-- The command of the table word `w` presented as the next input to a block whose target has been acquired (R183), which is
all that makes the very next step run it (log entry 9). -/
def presentWord (s : State) (nbits w : Nat) : State :=
  acquireTarget { s with inputs := .command (BitVec.ofNat 24 (w % 2 ^ nbits)) :: s.inputs }

end Sys2Proof.Machine
end

