-- ==== Sys2Proof/Safety.lean ====
section
/-! DEFINITION. The terms claims are stated in: launch states and the invariants between operations
(spec/70_reset_and_hazards.md R184, spec/10_state.md R27, R33, R34), the event lists the rules write out
(spec/40_tap_cycle.md R105 to R114, spec/41_shift.md R130, spec/42_tclk.md R150), and what an observer of the pins reads off a
list of events (R115, R118). Nothing here is called by the machine. -/

namespace Sys2Proof.Machine

/-! Launch states and invariants. -/

/-- The variant of the pin registers (R39). -/
def pinsLink : Pins → Link
  | .jtag4 _ => .jtag4
  | .sbw _ => .sbw

/-- The pin clauses of R33, read off the registers. -/
def SbwPinsIdle (s : State) : Prop :=
  s.pins = .sbw { sbwtck := true, tdioOut := s.tclkLatch, tdioDir := .output }

/-- The pin clauses of R34: `tck = 1`, `tms = 0`, whatever `tdi` and `tclk`. -/
def Jtag4PinsIdle (s : State) : Prop :=
  ∃ tdi tclk, s.pins = .jtag4 { tck := true, tms := false, tdi := tdi, tclk := tclk }

/-- `L_pins` of R184. -/
def PinsIdle (s : State) : Prop :=
  match s.cfg.link with
  | .jtag4 => Jtag4PinsIdle s
  | .sbw => SbwPinsIdle s

/-- R184, premise by premise, with R183's construction; `L_no_reset` is the absence of a reset among the inputs served. -/
structure Launch (s : State) : Prop where
  idle        : s.busy = false
  tap         : s.tap = .runTestIdle
  targetTap   : s.target.tapIdle = true
  constructed : s.constructed = true
  pins        : PinsIdle s
  tclk        : s.target.tclk = logicalTclk s
  binding     : ¬ (s.cfg.link = .jtag4 ∧ s.cfg.tclkBinding = .sharedWithTdi)

/-- What holds between steps (R33, R34): no command is in flight, the tracker is in Run-Test/Idle, and the lines of a
constructed block are in the idle pattern, the target having seen the logical TCLK level. Before construction the block's
own state is as a reset left it. -/
structure BetweenOps (s : State) : Prop where
  idle : s.busy = false
  tap  : s.tap = .runTestIdle
  up   : s.constructed = true → PinsIdle s ∧ s.target.tclk = logicalTclk s
  down : s.constructed = false →
    s.tclkLatch = s.cfg.tclkLatchReset ∧ s.trace = [] ∧ s.target.tapIdle = false

/-- R27: whether an event is legal for the pin registers it meets. -/
def eventLegal (p : Pins) : PinEvent → Bool
  | .set .tck _ => pinsLink p == .jtag4
  | .set .tms _ => pinsLink p == .jtag4
  | .set .tdi _ => pinsLink p == .jtag4
  | .set .tclk _ => pinsLink p == .jtag4
  | .set .sbwtck _ => pinsLink p == .sbw
  | .set .sbwtdio _ => pinsLink p == .sbw
  | .set .tdo _ => false
  | .dir l _ => l == .sbwtdio && pinsLink p == .sbw
  | .sample l _ =>
    match p with
    | .jtag4 _ => l == .tdo
    | .sbw q => l == .sbwtdio && q.tdioDir == .input

/-- The pin registers a list of events leaves (R28); `none` at the first event R27 does not allow. -/
def replay (p : Pins) : List PinEvent → Option Pins
  | [] => some p
  | e :: es => if eventLegal p e then replay (applyEvent e p) es else none

/-- R27, R28, R30: the trace of a constructed block is legal, and gives the pin registers from the idle pattern that
construction drove. Before construction it is empty. -/
def TraceExplainsPins (s : State) : Prop :=
  (s.constructed = true → replay (idlePins s.cfg) s.trace = some s.pins) ∧
  (s.constructed = false → s.trace = [])

/-! The event lists of the rules. -/

/-- One TAP cycle as `TapCycle(tms, tdi)` asks for it (R103). -/
structure Cycle where
  tms : Bit
  tdi : Option Bit
deriving DecidableEq, Repr

/-- R105, with the bit `b` sampled. -/
def cycle4Events (c : Cycle) (b : Bit) : List PinEvent :=
  [.set .tms c.tms] ++
  (match c.tdi with
   | some d => [.set .tdi d]
   | none => []) ++
  [.set .tck false, .set .tck true, .sample .tdo b]

/-- R116: the events of a TMS slot, from its idleness, the latch and the TMS value. -/
def slotTmsEvents (idle latch tms : Bit) : List PinEvent :=
  match idle, latch with
  | true, true => [.set .sbwtdio true, .set .sbwtck false, .set .sbwtdio false, .set .sbwtck true]
  | true, false => [.set .sbwtdio tms, .set .sbwtck false, .set .sbwtck true]
  | false, _ => [.set .sbwtdio tms, .set .sbwtck false, .set .sbwtck true]

/-- R111. -/
def slotTdiEvents (v : Bit) : List PinEvent := [.set .sbwtdio v, .set .sbwtck false, .set .sbwtck true]

/-- R112. -/
def slotTdoEvents (at' : TdoSample) (b : Bit) : List PinEvent :=
  match at' with
  | .afterPulse => [.dir .sbwtdio .input, .set .sbwtck false, .set .sbwtck true, .sample .sbwtdio b]
  | .duringLow => [.dir .sbwtdio .input, .set .sbwtck false, .sample .sbwtdio b, .set .sbwtck true]

/-- R113. -/
def restoreEvents (latch : Bit) : List PinEvent := [.set .sbwtdio latch, .dir .sbwtdio .output]

/-- R110: an idle slot, from the tracker before the cycle. -/
def entersIdle (q : TapState) (tms : Bit) : Bit := tapNext q tms == .runTestIdle

/-- R114, with the bit `b` sampled, the latch `latch` and the tracker `q` before the cycle. -/
def cycleSbwEvents (at' : TdoSample) (latch : Bit) (q : TapState) (c : Cycle) (b : Bit) : List PinEvent :=
  slotTmsEvents (entersIdle q c.tms) latch c.tms ++ slotTdiEvents (c.tdi.getD latch) ++
    slotTdoEvents at' b ++ restoreEvents latch

/-- R103: the events of one TAP cycle in the instance's variant. -/
def cycleEvents (cfg : Config) (latch : Bit) (q : TapState) (c : Cycle) (b : Bit) : List PinEvent :=
  match cfg.link with
  | .jtag4 => cycle4Events c b
  | .sbw => cycleSbwEvents cfg.tdoSample latch q c b

/-- The events of successive cycles; `a j` is the bit sampled in the one after the next `j`. -/
def cyclesEvents (cfg : Config) (latch : Bit) : TapState → List Cycle → (Nat → Bit) → List PinEvent
  | _, [], _ => []
  | q, c :: cs, a =>
    cycleEvents cfg latch q c (a 0) ++ cyclesEvents cfg latch (tapNext q c.tms) cs (fun j => a (j + 1))

/-- The tracker after successive cycles. -/
def tapAfter (q : TapState) (cs : List Cycle) : TapState := cs.foldl (fun q c => tapNext q c.tms) q

/-- The states successive TMS values walk through, the first one included. -/
def tapWalk (q : TapState) : List Bit → List TapState
  | [] => [q]
  | t :: ts => q :: tapWalk (tapNext q t) ts

/-- R102: the cycles from Run-Test/Idle into the Shift state. -/
def enterCycles (kind : ShiftKind) : List Cycle :=
  match kind with
  | .ir => [⟨true, none⟩, ⟨true, none⟩, ⟨false, none⟩, ⟨false, none⟩]
  | .dr => [⟨true, none⟩, ⟨false, none⟩, ⟨false, none⟩]

/-- R130: the data cycles; cycle `i` carries operand bit `i`, and the last raises TMS. -/
def dataCyclesOf (n : Nat) (data : BitVec n) : List Cycle :=
  (List.range n).map fun i => ⟨i + 1 == n, some (data.getLsbD i)⟩

/-- R102: the cycles from Exit1 to Run-Test/Idle. -/
def leaveCycles : List Cycle := [⟨true, none⟩, ⟨false, none⟩]

/-- R130: the TAP cycles of `Shift(kind, N, data)`. -/
def shiftCycles (kind : ShiftKind) (n : Nat) (data : BitVec n) : List Cycle :=
  enterCycles kind ++ dataCyclesOf n data ++ leaveCycles

/-- R130: the events `Shift(kind, N, data)` adds to the trace from the launch state `s`. -/
def shiftEvents (kind : ShiftKind) (n : Nat) (data : BitVec n) (s : State) : List PinEvent :=
  cyclesEvents s.cfg s.tclkLatch .runTestIdle (shiftCycles kind n data) (fun j => answerAt j s)

/-- R150: the events `Tclk(v)` adds to the trace from the launch state `s`. -/
def tclkEvents (v : Bit) (s : State) : List PinEvent :=
  match s.cfg.link with
  | .jtag4 => [.set .tclk v]
  | .sbw => slotTmsEvents true s.tclkLatch false ++ slotTdiEvents v ++
      slotTdoEvents s.cfg.tdoSample (answerAt 0 s) ++ restoreEvents v

/-- The events an operation adds to the trace from the launch state `s`. -/
def opEvents (i : Instr) (s : State) : List PinEvent :=
  match i with
  | .irShift d => shiftEvents .ir 8 d s
  | .drShift8 d => shiftEvents .dr 8 d s
  | .drShift16 d => shiftEvents .dr 16 d s
  | .tclkClear => tclkEvents false s
  | .tclkSet => tclkEvents true s

/-- R134: `sum over i of b_i * 2^(N-1-i)`, `b_i` being `a i`. -/
def resultValue (n : Nat) (a : Nat → Bit) : Nat :=
  ((List.range n).map fun i => (a i).toNat * 2 ^ (n - 1 - i)).sum

/-- The operations that exchange data with a scan chain (R61). -/
def isShift : Instr → Bool
  | .irShift _ => true
  | .drShift8 _ => true
  | .drShift16 _ => true
  | .tclkClear => false
  | .tclkSet => false

/-- R102: the navigation cycles before the first data cycle. -/
def cyclesIn : Instr → Nat
  | .irShift _ => 4
  | .drShift8 _ => 3
  | .drShift16 _ => 3
  | .tclkClear => 0
  | .tclkSet => 0

/-- R58: the data cycles of an operation. -/
def dataWidth : Instr → Nat
  | .irShift _ => 8
  | .drShift8 _ => 8
  | .drShift16 _ => 16
  | .tclkClear => 0
  | .tclkSet => 0

/-- R73: the operand of an operation as the 16 bits of `s.opnd`. -/
def operandOf : Instr → BitVec 16
  | .irShift d => d.setWidth 16
  | .drShift8 d => d.setWidth 16
  | .drShift16 d => d
  | .tclkClear => 0
  | .tclkSet => 0

/-- R102: the TMS values of a shift, cycle by cycle. -/
def walkTms (i : Instr) : List Bit :=
  match i with
  | .irShift _ => [true, true, false, false] ++ List.replicate 7 false ++ [true, true, false]
  | .drShift8 _ => [true, false, false] ++ List.replicate 7 false ++ [true, true, false]
  | .drShift16 _ => [true, false, false] ++ List.replicate 15 false ++ [true, true, false]
  | .tclkClear => []
  | .tclkSet => []

/-- R102: the states a shift walks through, from Run-Test/Idle to Run-Test/Idle. -/
def walkStates (i : Instr) : List TapState :=
  match i with
  | .irShift _ => [.runTestIdle, .selectDRScan, .selectIRScan, .captureIR] ++ List.replicate 8 .shiftIR ++
      [.exit1IR, .updateIR, .runTestIdle]
  | .drShift8 _ => [.runTestIdle, .selectDRScan, .captureDR] ++ List.replicate 8 .shiftDR ++
      [.exit1DR, .updateDR, .runTestIdle]
  | .drShift16 _ => [.runTestIdle, .selectDRScan, .captureDR] ++ List.replicate 16 .shiftDR ++
      [.exit1DR, .updateDR, .runTestIdle]
  | .tclkClear => [.runTestIdle]
  | .tclkSet => [.runTestIdle]

/-- The events a state's trace has beyond those of an earlier state's. -/
def newEvents (s t : State) : List PinEvent := t.trace.drop s.trace.length

/-! What an observer of the pins reads off a list of events. -/

/-- R118: one TAP cycle at the logical level. -/
structure LogicalCycle where
  tms : Bit
  tdi : Bit
  tdo : Bit
deriving DecidableEq, Repr

/-- R118 for `JTAG4`: the levels of `TMS` and `TDI` at the rising edge of `TCK`, and the bit then sampled. `tms` and `tdi` are
the levels before the events, `edge` the pair seen at the last rising edge. -/
def logical4 (tms tdi : Bit) (edge : Bit × Bit) : List PinEvent → List LogicalCycle
  | [] => []
  | .set .tms b :: es => logical4 b tdi edge es
  | .set .tdi b :: es => logical4 tms b edge es
  | .set .tck true :: es => logical4 tms tdi (tms, tdi) es
  | .sample _ b :: es => ⟨edge.1, edge.2, b⟩ :: logical4 tms tdi edge es
  | _ :: es => logical4 tms tdi edge es

/-- R118 for `SBW`: the levels of `SBWTDIO` at the first and the second rising edge of `SBWTCK` in a cycle, and the bit sampled;
the cycle ends when the line is driven again. `line` is the output register before the events, `rises` the levels at the
rising edges of the cycle so far, last first, and `tdo` the bit sampled so far. -/
def logicalSbw (line : Bit) (rises : List Bit) (tdo : Bit) : List PinEvent → List LogicalCycle
  | [] => []
  | .set .sbwtdio b :: es => logicalSbw b rises tdo es
  | .set .sbwtck true :: es => logicalSbw line (line :: rises) tdo es
  | .sample _ b :: es => logicalSbw line rises b es
  | .dir _ .output :: es =>
    ⟨rises.reverse.getD 0 false, rises.reverse.getD 1 false, tdo⟩ :: logicalSbw line [] false es
  | _ :: es => logicalSbw line rises tdo es

/-- R118: `Logical(op)`, read off the events `es` that follow the pin registers `p`. -/
def logicalCycles (p : Pins) (es : List PinEvent) : List LogicalCycle :=
  match p with
  | .jtag4 q => logical4 q.tms q.tdi (q.tms, q.tdi) es
  | .sbw q => logicalSbw q.tdioOut [] false es

/-- One edge of the SBW clock: whether it rises, and the level the block drives on `SBWTDIO` there, `none` where the line is
released (R115's `z`). -/
structure EdgeLevel where
  rising : Bit
  level  : Option Bit
deriving DecidableEq, Repr

/-- R115: the levels at the edges of `SBWTCK`; `line` and `d` are the output register and the direction before the events. -/
def edgeLevels (line : Bit) (d : Dir) : List PinEvent → List EdgeLevel
  | [] => []
  | .set .sbwtdio b :: es => edgeLevels b d es
  | .set .sbwtck e :: es => ⟨e, if d = .output then some line else none⟩ :: edgeLevels line d es
  | .dir _ d' :: es => edgeLevels line d' es
  | _ :: es => edgeLevels line d es

/-- The levels `SBWTDIO` shows each time the block drives it again, at the end of each SBW cycle (R135). -/
def restLevels (line : Bit) : List PinEvent → List Bit
  | [] => []
  | .set .sbwtdio b :: es => restLevels b es
  | .dir _ .output :: es => line :: restLevels line es
  | _ :: es => restLevels line es

/-- Whether an event is a rising edge of the variant's clock line, the end of a clock pulse (R137). -/
def isPulse : PinEvent → Bool
  | .set .tck true => true
  | .set .sbwtck true => true
  | _ => false

/-! Runs. -/

/-- Operations performed one after another, each from the state the one before it left (R63). -/
def execAll : List Instr → State → Host.Outcome State Fault Refusal
  | [], s => .next s
  | i :: is, s =>
    match exec i s with
    | .next t => execAll is t
    | .fault f => .fault f
    | .refused r => .refused r

end Sys2Proof.Machine
end

