-- ==== Sys2Proof/Certificates/Slice0/Obligations.lean ====
section
/-! DEFINITION. The statements for the provers. -/

open Sys2Proof Sys2Proof.Machine

/-! The command word. -/

/-- R79, which the spec marks as derived from R72 and R75: the encoder's five equations, and decoding an encoded operation
gives it back. -/
def Obligations.DecodeOfEncodeIsTheInstruction : Prop :=
  (∀ i : Instr, decode (encode i) = some i) ∧
  (∀ d : BitVec 8, (encode (.irShift d)).toNat = d.toNat) ∧
  (∀ d : BitVec 8, (encode (.drShift8 d)).toNat = 0x010000 + d.toNat) ∧
  (∀ d : BitVec 16, (encode (.drShift16 d)).toNat = 0x020000 + d.toNat) ∧
  encode .tclkClear = 0x030000#24 ∧ encode .tclkSet = 0x040000#24

/-- From R72 and R79: a word has one meaning, and that meaning one word. -/
def Obligations.EncodeOfDecodeIsTheWord : Prop :=
  ∀ (w : CmdWord) (i : Instr), decode w = some i → encode i = w

/-- R72: the opcode map, row by row (mask, match, operand bits), and the rows are disjoint. -/
def Obligations.OpcodeMapRowByRow : Prop :=
  (∀ (w : CmdWord) (d : BitVec 8), decode w = some (.irShift d) ↔ w &&& 0xFFFF00#24 = 0x000000#24 ∧ d = w.extractLsb' 0 8) ∧
  (∀ (w : CmdWord) (d : BitVec 8), decode w = some (.drShift8 d) ↔ w &&& 0xFFFF00#24 = 0x010000#24 ∧ d = w.extractLsb' 0 8) ∧
  (∀ (w : CmdWord) (d : BitVec 16), decode w = some (.drShift16 d) ↔ w &&& 0xFF0000#24 = 0x020000#24 ∧ d = w.extractLsb' 0 16) ∧
  (∀ w : CmdWord, decode w = some .tclkClear ↔ w &&& 0xFFFFFF#24 = 0x030000#24) ∧
  (∀ w : CmdWord, decode w = some .tclkSet ↔ w &&& 0xFFFFFF#24 = 0x040000#24) ∧
  opRows.Pairwise (fun r q => ∀ w : CmdWord, ¬ (w &&& r.mask = r.pattern ∧ w &&& q.mask = q.pattern))

/-- R75, R161: which words are illegal, and the whole effect of one; no operation answers with `illegal = 1`. -/
def Obligations.IllegalWordIsRefusedWithoutEffect : Prop :=
  (∀ w : CmdWord, decode w = none ↔
    (5 ≤ (opcOf w).toNat ∨
     ((opcOf w = 0x00#8 ∨ opcOf w = 0x01#8) ∧ (opndOf w).extractLsb' 8 8 ≠ 0x00#8) ∨
     ((opcOf w = 0x03#8 ∨ opcOf w = 0x04#8) ∧ opndOf w ≠ 0x0000#16))) ∧
  (∀ (w : CmdWord) (s : State) (rest : List Input), decode w = none → s.inputs = .command w :: rest → s.busy = false →
    step s = .next { s with inputs := rest, responses := s.responses ++ [0x10000#17] }) ∧
  (∀ (i : Instr) (s t : State), exec i s = .next t →
    ∃ r, t.responses = s.responses ++ [r] ∧ rspIllegal r = false)

/-- spec/95_test_vectors.md section 2.1: some of its words. -/
def Obligations.SpecWordsDecodeAsListed : Prop :=
  decode 0x000013#24 = some (.irShift 0x13#8) ∧ decode 0x0000FF#24 = some (.irShift 0xFF#8) ∧
  decode 0x0100FF#24 = some (.drShift8 0xFF#8) ∧ decode 0x02A55A#24 = some (.drShift16 0xA55A#16) ∧
  decode 0x030000#24 = some .tclkClear ∧ decode 0x040000#24 = some .tclkSet ∧
  decode 0x000100#24 = none ∧ decode 0x018000#24 = none ∧ decode 0x030001#24 = none ∧ decode 0x050000#24 = none

/-- From R77: the lines of each mnemonic, an operand that does not fit, and the rule's example lines as text. -/
def Obligations.AssemblerLinesGiveTheirOperation : Prop :=
  (∀ n, assemble ⟨.irShift, some n, none⟩ = if n < 256 then some (.irShift (BitVec.ofNat 8 n)) else none) ∧
  (∀ n, assemble ⟨.drShift8, some n, none⟩ = if n < 256 then some (.drShift8 (BitVec.ofNat 8 n)) else none) ∧
  (∀ n, assemble ⟨.drShift16, some n, none⟩ = if n < 65536 then some (.drShift16 (BitVec.ofNat 16 n)) else none) ∧
  (∀ m ∈ [Mnemonic.irShift, .drShift8, .drShift16], assemble ⟨m, none, none⟩ = none) ∧
  (∀ n, assemble ⟨.tclkClear, n, none⟩ = if n = none then some .tclkClear else none) ∧
  (∀ n, assemble ⟨.tclkSet, n, none⟩ = if n = none then some .tclkSet else none) ∧
  assembleText "ir_shift 0x13".toList = some 0x000013#24 ∧
  assembleText "dr_shift_16 0xA55A".toList = some 0x02A55A#24 ∧
  assembleText "dr_shift_8 7".toList = some 0x010007#24 ∧
  assembleText "tclk_set".toList = some 0x040000#24 ∧
  assembleText "dr_shift_16 0xA55A -> 0x1234".toList = some 0x02A55A#24 ∧
  assembleText "dr_shift_8 256".toList = none

/-- When the next input is a command word of a legal operation, the step is that operation's `exec`, the input taken. -/
def Obligations.StepRunsTheDecodedOperation : Prop :=
  ∀ (s : State) (w : CmdWord) (i : Instr) (rest : List Input),
    s.inputs = .command w :: rest → decode w = some i → step s = exec i { s with inputs := rest }

/-! The TAP and the TAP cycle. -/

/-- R101: the table, a row a state (`tms = 0`, `tms = 1`), and the corner case under it. -/
def Obligations.TapNextIsTheTable : Prop :=
  (∀ r ∈ [(TapState.testLogicReset, TapState.runTestIdle, TapState.testLogicReset),
      (.runTestIdle, .runTestIdle, .selectDRScan), (.selectDRScan, .captureDR, .selectIRScan),
      (.captureDR, .shiftDR, .exit1DR), (.shiftDR, .shiftDR, .exit1DR), (.exit1DR, .pauseDR, .updateDR),
      (.pauseDR, .pauseDR, .exit2DR), (.exit2DR, .shiftDR, .updateDR), (.updateDR, .runTestIdle, .selectDRScan),
      (.selectIRScan, .captureIR, .testLogicReset), (.captureIR, .shiftIR, .exit1IR), (.shiftIR, .shiftIR, .exit1IR),
      (.exit1IR, .pauseIR, .updateIR), (.pauseIR, .pauseIR, .exit2IR), (.exit2IR, .shiftIR, .updateIR),
      (.updateIR, .runTestIdle, .selectDRScan)],
    tapNext r.1 false = r.2.1 ∧ tapNext r.1 true = r.2.2) ∧
  (∀ (q : TapState) (t : Bit), tapNext q t = .runTestIdle ↔
    t = false ∧ (q = .testLogicReset ∨ q = .runTestIdle ∨ q = .updateDR ∨ q = .updateIR))

/-- R28: `Emit` appends the event whatever the level was, and writes the one register. -/
def Obligations.EmitAppendsAndWritesOneRegister : Prop :=
  (∀ (e : PinEvent) (s : State), emit e s = { s with trace := s.trace ++ [e], pins := (emit e s).pins }) ∧
  (∀ (s : State) (p : Jtag4Pins) (b : Bit), s.pins = .jtag4 p →
    (emit (.set .tck b) s).pins = .jtag4 { p with tck := b } ∧ (emit (.set .tms b) s).pins = .jtag4 { p with tms := b } ∧
    (emit (.set .tdi b) s).pins = .jtag4 { p with tdi := b } ∧ (emit (.set .tclk b) s).pins = .jtag4 { p with tclk := b }) ∧
  (∀ (s : State) (p : SbwPins) (b : Bit) (d : Dir), s.pins = .sbw p →
    (emit (.set .sbwtck b) s).pins = .sbw { p with sbwtck := b } ∧
    (emit (.set .sbwtdio b) s).pins = .sbw { p with tdioOut := b } ∧
    (emit (.dir .sbwtdio d) s).pins = .sbw { p with tdioDir := d })

/-- From R29: a sample's bit is the environment's, any bit is admitted, and only the trace shows it. That the environment's
bits stand in a list, and a free value where it is empty, is the model's choice (log entry 3). -/
def Obligations.SampleReturnsTheTargetsAnswer : Prop :=
  (∀ (l : Line) (s : State) (b : Bit) (bs : List Bit), s.answers = b :: bs →
    sample l s = (b, { s with trace := s.trace ++ [.sample l b], answers := bs })) ∧
  (∀ (l : Line) (s : State), s.answers = [] →
    sample l s = (Config.freeSample s.draws,
      { s with trace := s.trace ++ [.sample l (Config.freeSample s.draws)], draws := s.draws + 1 }))

/-- R105, R106: the events of a 4-wire cycle, data and navigation, and the registers it leaves. -/
def Obligations.FourWireCycleEvents : Prop :=
  ∀ (s : State) (tms : Bit), s.cfg.link = .jtag4 →
    (∀ d, (tapCycle tms (some d) s).2.trace = s.trace ++ [.set .tms tms, .set .tdi d, .set .tck false, .set .tck true,
      .sample .tdo (tapCycle tms (some d) s).1]) ∧
    (tapCycle tms none s).2.trace = s.trace ++ [.set .tms tms, .set .tck false, .set .tck true,
      .sample .tdo (tapCycle tms none s).1] ∧
    (∀ tdi, (tapCycle tms tdi s).1 = answerAt 0 s ∧ (tapCycle tms tdi s).2.tap = tapNext s.tap tms ∧
      (tapCycle tms tdi s).2.tclkLatch = s.tclkLatch ∧
      ∀ p, s.pins = .jtag4 p →
        (tapCycle tms tdi s).2.pins = .jtag4 { tck := true, tms := tms, tdi := tdi.getD p.tdi, tclk := p.tclk })

/-- R110 to R114: the events of an SBW cycle, slot by slot, the registers it leaves (R113, and R33 between cycles), and R110's
property of the levels at the two edges of the TMS slot. -/
def Obligations.SbwCycleEvents : Prop :=
  ∀ (s : State) (tms : Bit) (tdi : Option Bit), s.cfg.link = .sbw →
    (tapCycle tms tdi s).1 = answerAt 0 s ∧
    (tapCycle tms tdi s).2.trace = s.trace ++
      (if tapNext s.tap tms = .runTestIdle ∧ s.tclkLatch = true then
        [.set .sbwtdio true, .set .sbwtck false, .set .sbwtdio false, .set .sbwtck true]
       else [.set .sbwtdio tms, .set .sbwtck false, .set .sbwtck true]) ++
      [.set .sbwtdio (match tdi with
        | some d => d
        | none => s.tclkLatch), .set .sbwtck false, .set .sbwtck true] ++
      (match s.cfg.tdoSample with
        | .duringLow => [.dir .sbwtdio .input, .set .sbwtck false, .sample .sbwtdio (answerAt 0 s), .set .sbwtck true]
        | .afterPulse => [.dir .sbwtdio .input, .set .sbwtck false, .set .sbwtck true, .sample .sbwtdio (answerAt 0 s)]) ++
      [.set .sbwtdio s.tclkLatch, .dir .sbwtdio .output] ∧
    (edgeLevels s.tclkLatch .output (newEvents s (tapCycle tms tdi s).2)).take 2 =
      [⟨false, some (if tapNext s.tap tms = .runTestIdle then s.tclkLatch else tms)⟩, ⟨true, some tms⟩] ∧
    (tapCycle tms tdi s).2.tap = tapNext s.tap tms ∧
    (tapCycle tms tdi s).2.tclkLatch = s.tclkLatch ∧
    ∀ p, s.pins = .sbw p →
      (tapCycle tms tdi s).2.pins = .sbw { sbwtck := true, tdioOut := s.tclkLatch, tdioDir := .output }

/-- R115, which the spec marks as derived from R109 to R114: the level the block drives on `SBWTDIO` at each edge of a cycle's
clock, and before and after the cycle. -/
def Obligations.SbwCycleLevels : Prop :=
  ∀ (s : State) (tms : Bit) (tdi : Option Bit), s.cfg.link = .sbw → SbwPinsIdle s →
    edgeLevels s.tclkLatch .output (newEvents s (tapCycle tms tdi s).2) =
      [⟨false, some (if tapNext s.tap tms = .runTestIdle then s.tclkLatch else tms)⟩, ⟨true, some tms⟩,
       ⟨false, some (tdi.getD s.tclkLatch)⟩, ⟨true, some (tdi.getD s.tclkLatch)⟩, ⟨false, none⟩, ⟨true, none⟩] ∧
    replay s.pins (newEvents s (tapCycle tms tdi s).2) = some (tapCycle tms tdi s).2.pins ∧
    SbwPinsIdle (tapCycle tms tdi s).2

/-- R116, which the spec marks as derived from R101 and R110: the four rows of TMS slots. -/
def Obligations.SbwTmsSlotCases : Prop :=
  (∀ s : State, (s.tap = .runTestIdle ∨ s.tap = .updateDR ∨ s.tap = .updateIR) → s.tclkLatch = false →
    (slotTms false s).trace = s.trace ++ [.set .sbwtdio false, .set .sbwtck false, .set .sbwtck true]) ∧
  (∀ s : State, (s.tap = .runTestIdle ∨ s.tap = .updateDR ∨ s.tap = .updateIR) → s.tclkLatch = true →
    (slotTms false s).trace = s.trace ++
      [.set .sbwtdio true, .set .sbwtck false, .set .sbwtdio false, .set .sbwtck true]) ∧
  (∀ s : State,
    (slotTms true s).trace = s.trace ++ [.set .sbwtdio true, .set .sbwtck false, .set .sbwtck true]) ∧
  (∀ s : State, s.tap ∈ [TapState.selectDRScan, .selectIRScan, .captureDR, .captureIR, .shiftDR, .shiftIR] →
    (slotTms false s).trace = s.trace ++ [.set .sbwtdio false, .set .sbwtck false, .set .sbwtck true])

/-- R107: no 4-wire TAP cycle writes `TCLK`; with `TCLK` on the `TDI` pin every operation is refused. -/
def Obligations.FourWireCyclesLeaveTclk : Prop :=
  (∀ (s : State) (tms : Bit) (tdi : Option Bit) (b : Bit), s.cfg.link = .jtag4 →
    .set .tclk b ∉ newEvents s (tapCycle tms tdi s).2) ∧
  (∀ (i : Instr) (s : State), s.cfg.link = .jtag4 → s.cfg.tclkBinding = .sharedWithTdi → ∃ r, exec i s = .refused r)

/-! The shifts. -/

/-- R130, R131: `ir_shift` from a launch state runs; its encoding, response, events and flags. -/
def Obligations.IrShiftFromLaunch : Prop :=
  ∀ (s : State) (d : BitVec 8), Launch s → ∃ t, exec (.irShift d) s = .next t ∧
    encode (.irShift d) = 0x00#8 ++ 0x00#8 ++ d ∧
    t.responses = s.responses ++ [okResponse (BitVec.ofNat 16 (resultValue 8 fun i => answerAt (4 + i) s))] ∧
    t.trace = s.trace ++ shiftEvents .ir 8 d s ∧
    (logicalCycles s.pins (shiftEvents .ir 8 d s)).length = 14 ∧
    t.tap = .runTestIdle ∧ t.tclkLatch = s.tclkLatch ∧ logicalTclk t = logicalTclk s

/-- R130, R132: `dr_shift_8` from a launch state. -/
def Obligations.DrShift8FromLaunch : Prop :=
  ∀ (s : State) (d : BitVec 8), Launch s → ∃ t, exec (.drShift8 d) s = .next t ∧
    encode (.drShift8 d) = 0x01#8 ++ 0x00#8 ++ d ∧
    t.responses = s.responses ++ [okResponse (BitVec.ofNat 16 (resultValue 8 fun i => answerAt (3 + i) s))] ∧
    t.trace = s.trace ++ shiftEvents .dr 8 d s ∧
    (logicalCycles s.pins (shiftEvents .dr 8 d s)).length = 13 ∧
    t.tap = .runTestIdle ∧ t.tclkLatch = s.tclkLatch ∧ logicalTclk t = logicalTclk s

/-- R130, R133: `dr_shift_16` from a launch state. -/
def Obligations.DrShift16FromLaunch : Prop :=
  ∀ (s : State) (d : BitVec 16), Launch s → ∃ t, exec (.drShift16 d) s = .next t ∧
    encode (.drShift16 d) = 0x02#8 ++ d ∧
    t.responses = s.responses ++ [okResponse (BitVec.ofNat 16 (resultValue 16 fun i => answerAt (3 + i) s))] ∧
    t.trace = s.trace ++ shiftEvents .dr 16 d s ∧
    (logicalCycles s.pins (shiftEvents .dr 16 d s)).length = 21 ∧
    t.tap = .runTestIdle ∧ t.tclkLatch = s.tclkLatch ∧ logicalTclk t = logicalTclk s

/-- The frame of the three shifts: what stays, and the registers of the lines (R34, R130). There is no memory (R50). -/
def Obligations.ShiftFrame : Prop :=
  ∀ (i : Instr) (s t : State), isShift i = true → exec i s = .next t →
    t.cfg = s.cfg ∧ t.tap = s.tap ∧ t.tclkLatch = s.tclkLatch ∧ t.busy = s.busy ∧ t.constructed = s.constructed ∧
    t.target = s.target ∧ t.inputs = s.inputs ∧ s.trace <+: t.trace ∧ s.responses <+: t.responses ∧
    (∀ j, answerAt j t = answerAt (j + (cyclesIn i + dataWidth i + 2)) s) ∧
    (∀ p, s.pins = .sbw p → t.pins = s.pins) ∧
    (∀ p, s.pins = .jtag4 p → t.slot = s.slot ∧ (∀ b, .set .tclk b ∉ newEvents s t) ∧
      t.pins = .jtag4 { p with tdi := (operandOf i).getLsbD (dataWidth i - 1) })

/-- R102: the TMS values an observer reads off the lines during a shift, and the states they walk a TAP through. -/
def Obligations.ShiftWalksTheStandardPath : Prop :=
  ∀ (i : Instr) (s : State), isShift i = true → Launch s → ∃ t, exec i s = .next t ∧
    (logicalCycles s.pins (newEvents s t)).map (·.tms) = walkTms i ∧
    tapWalk .runTestIdle (walkTms i) = walkStates i ∧
    (walkTms i).length = cyclesIn i + dataWidth i + 2

/-- R55: the first data bit out is bit 0 of the operand, the first bit in ends as the most significant bit of the result, and a
target that echoes each bit gives the operand reversed; a data cycle shifts the sampled bit into the accumulator. -/
def Obligations.ShiftBitOrder : Prop :=
  ∀ (i : Instr) (s : State), isShift i = true → Launch s → ∃ t r, exec i s = .next t ∧ t.responses = s.responses ++ [r] ∧
    (∀ k < dataWidth i,
      ((logicalCycles s.pins (newEvents s t))[cyclesIn i + k]?).map (fun c => (c.tdi, c.tdo)) =
        some ((operandOf i).getLsbD k, answerAt (cyclesIn i + k) s) ∧
      (rspData r).getLsbD (dataWidth i - 1 - k) = answerAt (cyclesIn i + k) s) ∧
    ((∀ k < dataWidth i, answerAt (cyclesIn i + k) s = (operandOf i).getLsbD k) →
      ∀ k < dataWidth i, (rspData r).getLsbD (dataWidth i - 1 - k) = (operandOf i).getLsbD k) ∧
    ∀ (n : Nat) (u : State), (dataCycle n u).acc = (u.acc <<< 1) ||| (BitVec.ofBool (answerAt 0 u)).setWidth 16

/-- From R134 and R56: the accumulator's bits and value, that it fits the width, and that the response is the accumulator. That
`opnd` and `acc` still hold the operand and the result after the response is the model's choice (log entry 15). -/
def Obligations.AccumulatorHoldsTheResult : Prop :=
  ∀ (i : Instr) (s : State), isShift i = true → Launch s → ∃ t, exec i s = .next t ∧
    t.responses = s.responses ++ [0#1 ++ t.acc] ∧ t.opnd = operandOf i ∧
    t.acc.toNat = resultValue (dataWidth i) (fun k => answerAt (cyclesIn i + k) s) ∧
    t.acc.toNat < 2 ^ dataWidth i ∧
    ∀ j < dataWidth i, t.acc.getLsbD j = answerAt (cyclesIn i + (dataWidth i - 1 - j)) s

/-- R135, which the spec marks as derived: what a shift preserves, and the level `SBWTDIO` rests at after each of its cycles. -/
def Obligations.ShiftPreservesTheClockLevel : Prop :=
  ∀ (i : Instr) (s : State), isShift i = true → Launch s → ∃ t, exec i s = .next t ∧
    logicalTclk t = logicalTclk s ∧ t.tap = .runTestIdle ∧ PinsIdle t ∧
    (s.cfg.link = .sbw →
      restLevels s.tclkLatch (newEvents s t) = List.replicate (cyclesIn i + dataWidth i + 2) s.tclkLatch ∧
      t.pins = .sbw { sbwtck := true, tdioOut := s.tclkLatch, tdioDir := .output })

/-- R137, which the spec marks as derived: the size of each shift: TAP cycles, events, clock pulses, samples. -/
def Obligations.ShiftSizes : Prop :=
  ∀ (i : Instr) (s : State), isShift i = true → Launch s → ∃ t, exec i s = .next t ∧
    ((logicalCycles s.pins (newEvents s t)).length, (newEvents s t).length, (newEvents s t).countP isPulse,
      (newEvents s t).countP isSample) =
    (match i, s.cfg.link with
     | .irShift _, .jtag4 => (14, 64, 14, 14)
     | .drShift8 _, .jtag4 => (13, 60, 13, 13)
     | .drShift16 _, .jtag4 => (21, 100, 21, 21)
     | .irShift _, .sbw => (14, 168 + s.tclkLatch.toNat, 42, 14)
     | .drShift8 _, .sbw => (13, 156 + s.tclkLatch.toNat, 39, 13)
     | .drShift16 _, .sbw => (21, 252 + s.tclkLatch.toNat, 63, 21)
     | .tclkClear, _ => (0, 0, 0, 0)
     | .tclkSet, _ => (0, 0, 0, 0))

/-- From R130, R24 and R104: what an operation answers depends on nothing but the operation and the bits sampled in its data
cycles: not on the navigation answers, the latch, the lines or the variant. -/
def Obligations.ResponseDependsOnDataAnswersOnly : Prop :=
  ∀ (i : Instr) (s u s' u' : State), exec i s = .next s' → exec i u = .next u' →
    (∀ k < dataWidth i, answerAt (cyclesIn i + k) s = answerAt (cyclesIn i + k) u) →
    s'.responses.drop s.responses.length = u'.responses.drop u.responses.length

/-! The TCLK operations. -/

/-- R151: `tclk_clear` from a launch state runs; its response, events and flags in both variants. -/
def Obligations.TclkClearFromLaunch : Prop :=
  ∀ s : State, Launch s → ∃ t, exec .tclkClear s = .next t ∧ encode .tclkClear = 0x030000#24 ∧
    t.responses = s.responses ++ [0x00000#17] ∧
    t.trace = s.trace ++ tclkEvents false s ∧ logicalTclk t = false ∧
    (s.cfg.link = .sbw → t.tclkLatch = false ∧
      t.pins = .sbw { sbwtck := true, tdioOut := false, tdioDir := .output }) ∧
    (∀ p, s.pins = .jtag4 p → t.pins = .jtag4 { p with tclk := false })

/-- R152: `tclk_set` from a launch state. -/
def Obligations.TclkSetFromLaunch : Prop :=
  ∀ s : State, Launch s → ∃ t, exec .tclkSet s = .next t ∧ encode .tclkSet = 0x040000#24 ∧
    t.responses = s.responses ++ [0x00000#17] ∧
    t.trace = s.trace ++ tclkEvents true s ∧ logicalTclk t = true ∧
    (s.cfg.link = .sbw → t.tclkLatch = true ∧
      t.pins = .sbw { sbwtck := true, tdioOut := true, tdioDir := .output }) ∧
    (∀ p, s.pins = .jtag4 p → t.pins = .jtag4 { p with tclk := true })

/-- The frame of the two TCLK operations (R150): what stays in both variants, and the whole next state in `JTAG4`. -/
def Obligations.TclkFrame : Prop :=
  ∀ (i : Instr) (s t : State), isShift i = false → exec i s = .next t →
    t.cfg = s.cfg ∧ t.tap = s.tap ∧ t.opnd = s.opnd ∧ t.acc = s.acc ∧ t.cycle = s.cycle ∧ t.busy = s.busy ∧
    t.constructed = s.constructed ∧ t.target.tapIdle = s.target.tapIdle ∧ t.inputs = s.inputs ∧
    s.trace <+: t.trace ∧ s.responses <+: t.responses ∧
    (s.cfg.link = .sbw → ∀ j, answerAt j t = answerAt (j + 1) s) ∧
    (s.cfg.link = .jtag4 → t = { s with
      pins := t.pins, trace := t.trace, responses := t.responses, target := { s.target with tclk := logicalTclk t } })

/-- R153, which the spec marks as derived: the levels of `SBWTDIO` at each edge of an SBW TCLK operation, before and after it. -/
def Obligations.TclkOperationLevels : Prop :=
  ∀ (s : State) (v : Bit), s.cfg.link = .sbw → Launch s →
    ∃ t, exec (if v then .tclkSet else .tclkClear) s = .next t ∧
      s.pins = .sbw { sbwtck := true, tdioOut := s.tclkLatch, tdioDir := .output } ∧
      edgeLevels s.tclkLatch .output (newEvents s t) =
        [⟨false, some s.tclkLatch⟩, ⟨true, some false⟩, ⟨false, some v⟩, ⟨true, some v⟩, ⟨false, none⟩, ⟨true, none⟩] ∧
      t.pins = .sbw { sbwtck := true, tdioOut := v, tdioDir := .output }

/-- R154: setting a level that is there already changes no field of R39's record but the trace, which still grows. -/
def Obligations.TclkRepeatStillEmits : Prop :=
  ∀ (s : State) (v : Bit), Launch s → logicalTclk s = v →
    ∃ t, exec (if v then .tclkSet else .tclkClear) s = .next t ∧
      t.cfg = s.cfg ∧ t.tap = s.tap ∧ t.tclkLatch = s.tclkLatch ∧ t.pins = s.pins ∧ t.opnd = s.opnd ∧ t.acc = s.acc ∧
      t.busy = s.busy ∧
      t.constructed = s.constructed ∧ t.target = s.target ∧
      (s.cfg.link = .jtag4 → t.trace = s.trace ++ [.set .tclk v]) ∧
      (s.cfg.link = .sbw → t.trace = s.trace ++ tclkEvents v s ∧ (newEvents s t).length = 12 + s.tclkLatch.toNat)

/-- R155, which the spec marks as derived: the size of a TCLK operation: events, clock pulses, samples. -/
def Obligations.TclkSizes : Prop :=
  ∀ (i : Instr) (s : State), isShift i = false → Launch s → ∃ t, exec i s = .next t ∧
    ((newEvents s t).length, (newEvents s t).countP isPulse, (newEvents s t).countP isSample) =
    (match s.cfg.link with
     | .jtag4 => (1, 0, 0)
     | .sbw => (12 + (logicalTclk s).toNat, 3, 1))

/-- R157, which the spec marks as derived: once set or cleared, the level stays through any shifts, at the end and after every
cycle on the way. -/
def Obligations.TclkLevelPersistsThroughShifts : Prop :=
  ∀ (s : State) (v : Bit) (is : List Instr), Launch s → (∀ i ∈ is, isShift i = true) →
    ∃ u t, exec (if v then .tclkSet else .tclkClear) s = .next u ∧ execAll is u = .next t ∧
      Launch t ∧ logicalTclk u = v ∧ logicalTclk t = v ∧
      (s.cfg.link = .sbw → (∀ l ∈ restLevels v (newEvents u t), l = v) ∧
        t.pins = .sbw { sbwtck := true, tdioOut := v, tdioDir := .output })

/-- From R24 and R165, over every step: nothing changes the latch but the two TCLK operations and a reset. -/
def Obligations.OnlyTclkOperationsAndResetWriteTheLatch : Prop :=
  ∀ s t : State, step s = .next t → t.tclkLatch ≠ s.tclkLatch →
    ∃ rest, s.inputs = .command 0x030000#24 :: rest ∨ s.inputs = .command 0x040000#24 :: rest ∨
      s.inputs = .reset :: rest ∨ ∃ w k, s.inputs = .resetDuring w k :: rest

/-! The whole machine. -/

/-- R184: an operation runs from a launch state and ends in one; from any other state it is refused. -/
def Obligations.OperationsRunFromLaunchStatesOnly : Prop :=
  ∀ (i : Instr) (s : State), (Launch s → ∃ t, exec i s = .next t ∧ Launch t) ∧ (¬ Launch s → ∃ r, exec i s = .refused r)

/-- From R33, R34 and R184: every step keeps what holds between operations. -/
def Obligations.EveryStepKeepsBetweenOps : Prop :=
  ∀ s t : State, BetweenOps s → step s = .next t → BetweenOps t

/-- From R27, R28 and R30: every step keeps the trace legal and the pin registers its outcome. -/
def Obligations.EveryStepKeepsTraceExplainsPins : Prop :=
  ∀ s t : State, TraceExplainsPins s → step s = .next t → TraceExplainsPins t

/-- The reset state of every configuration meets both invariants (values of R37; the constructed form is log entry 7's). -/
def Obligations.ResetMeetsTheInvariants : Prop :=
  BetweenOps State.reset ∧ TraceExplainsPins State.reset ∧
  ∀ c : Config, BetweenOps (State.resetOf c) ∧ TraceExplainsPins (State.resetOf c)

/-- R37, for every configuration: the reset value of each field that has one. -/
def Obligations.ResetValues : Prop :=
  ∀ c : Config, (State.resetOf c).tap = .runTestIdle ∧ (State.resetOf c).busy = false ∧ (State.resetOf c).trace = [] ∧
    (State.resetOf c).cfg = c ∧
    (c.link = .sbw → (State.resetOf c).tclkLatch = c.tclkLatchReset ∧
      (State.resetOf c).pins = .sbw { sbwtck := true, tdioOut := c.tclkLatchReset, tdioDir := .output }) ∧
    (c.link = .jtag4 →
      (State.resetOf c).pins = .jtag4 { tck := true, tms := false, tdi := false, tclk := c.tclkLatchReset })

/-- From R165: a reset, alone or cutting a command, takes the block's fields to their reset values, returns no response, and
leaves no operation a meaning. It can fall after any number of a command's pin events. The model's choices: that the inputs
are left alone (log entry 4), that the target's TAP counts as not idle (6), that the block is then not constructed (7), and
the form of a command that a reset cuts (12). -/
def Obligations.ResetTakesEveryFieldToItsResetValue : Prop :=
  (∀ (s t : State) (inp : Input) (rest : List Input), s.inputs = inp :: rest →
    (inp = .reset ∨ ∃ w k, inp = .resetDuring w k) → step s = .next t →
    t.cfg = s.cfg ∧ t.tap = .runTestIdle ∧ t.tclkLatch = s.cfg.tclkLatchReset ∧ t.busy = false ∧ t.trace = [] ∧
    t.responses = s.responses ∧ t.constructed = false ∧ t.target.tapIdle = false ∧ t.inputs = rest ∧
    ∀ i, ∃ r, exec i t = .refused r) ∧
  (∀ (s : State) (rest : List Input), s.inputs = .reset :: rest → ∃ t, step s = .next t) ∧
  (∀ (s : State) (i : Instr) (k : Nat) (rest : List Input), s.inputs = .resetDuring (encode i) k :: rest → Launch s →
    ∃ t, step s = .next t)

/-- R182: construction drives the idle pattern and emits nothing. -/
def Obligations.ConstructionDrivesTheIdlePattern : Prop :=
  ∀ (s : State) (rest : List Input), s.inputs = .construct :: rest → s.constructed = false → s.cfg.wf = true →
    ∃ t, step s = .next t ∧ t.trace = s.trace ∧ t.constructed = true ∧ t.inputs = rest ∧ t.cfg = s.cfg ∧ t.tap = s.tap ∧
      t.tclkLatch = s.tclkLatch ∧ t.busy = s.busy ∧
      (s.cfg.link = .sbw →
        t.pins = .sbw { sbwtck := true, tdioOut := s.cfg.tclkLatchReset, tdioDir := .output }) ∧
      (s.cfg.link = .jtag4 →
        t.pins = .jtag4 { tck := true, tms := false, tdi := false, tclk := s.cfg.tclkLatchReset })

/-- From R183 and R184: reset, construction and acquisition, in that order, lead from any state to a launch state; acquisition
before construction is refused, and so is a second construction (the model's choices, log entries 8 and 11). -/
def Obligations.ResetConstructAcquireReachLaunch : Prop :=
  (∀ (s : State) (rest : List Input), s.inputs = .reset :: .construct :: .acquire :: rest → s.cfg.wf = true →
    ∃ t, Host.Core.run core 3 s = .next t ∧ Launch t ∧ t.inputs = rest ∧ t.cfg = s.cfg ∧ t.trace = [] ∧
      logicalTclk t = s.cfg.tclkLatchReset) ∧
  (∀ (s : State) (rest : List Input), s.inputs = .acquire :: rest → s.busy = false → s.constructed = false →
    step s = .refused .notConstructed) ∧
  (∀ (s : State) (rest : List Input), s.inputs = .construct :: rest → s.constructed = true →
    step s = .refused .alreadyConstructed)

/-- The contract of acquisition (R183) as the model takes it (log entry 8): only what is known of the target changes. -/
def Obligations.AcquisitionChangesOnlyTheTarget : Prop :=
  ∀ (s : State) (rest : List Input), s.inputs = .acquire :: rest → s.busy = false → s.constructed = true →
    step s = .next { s with inputs := rest, target := { tapIdle := true, tclk := logicalTclk s } }

/-- R185, which the spec marks as derived: from any state, whatever the reset value, reset and acquisition and then `tclk_set`
or `tclk_clear` give a known level. -/
def Obligations.TclkOperationEstablishesTheLevel : Prop :=
  ∀ (s : State) (v : Bit) (rest : List Input), s.cfg.wf = true →
    s.inputs = .reset :: .construct :: .acquire :: .command (if v then 0x040000#24 else 0x030000#24) :: rest →
    ∃ t, Host.Core.run core 4 s = .next t ∧ logicalTclk t = v ∧ t.responses = s.responses ++ [0x00000#17]

/-- R70: the port accepts no command while it is busy; a command otherwise served ends with one response and a free port. -/
def Obligations.CommandPortServesOneCommandAtATime : Prop :=
  (∀ (s : State) (w : CmdWord) (rest : List Input), s.inputs = .command w :: rest → s.busy = true →
    step s = .refused .portBusy) ∧
  (∀ (s t : State) (w : CmdWord) (rest : List Input), s.inputs = .command w :: rest → step s = .next t →
    s.busy = false ∧ t.busy = false ∧ t.inputs = rest ∧ ∃ r, t.responses = s.responses ++ [r]) ∧
  (∀ (s : State) (r : RspWord), (accept s).busy = true ∧ (respond r s).busy = false)

/-- The model's choice (log entry 4): with no input the block waits, unchanged. -/
def Obligations.WithoutInputTheBlockWaits : Prop :=
  ∀ s : State, s.inputs = [] → step s = .next s

/-- From R63: an operation appends its own event list, whole and in order, then one response; so over a list of operations the
trace is the concatenation in issue order. -/
def Obligations.TraceIsTheConcatenationInIssueOrder : Prop :=
  (∀ (i : Instr) (s t : State), exec i s = .next t → t.trace = s.trace ++ opEvents i s) ∧
  (∀ (is js : List Instr) (s t : State), execAll (is ++ js) s = .next t →
    ∃ u, execAll is s = .next u ∧ execAll js u = .next t ∧ t.trace = s.trace ++ newEvents s u ++ newEvents u t ∧
      t.responses.length = s.responses.length + is.length + js.length)

/-- From R36 and R165: no step changes the configuration. -/
def Obligations.ConfigurationNeverChanges : Prop :=
  ∀ s t : State, step s = .next t → t.cfg = s.cfg

/-- From R186 and R192: a run of any command words from a launch state ends, with a response for each, in a launch state. -/
def Obligations.EveryRunOfCommandsEnds : Prop :=
  ∀ (ws : List CmdWord) (s : State) (rest : List Input), Launch s → s.inputs = ws.map .command ++ rest →
    ∃ t, Host.Core.run core ws.length s = .next t ∧ Launch t ∧ t.inputs = rest ∧ s.trace <+: t.trace ∧
      s.responses <+: t.responses ∧ t.responses.length = s.responses.length + ws.length

/-- R118, which the spec marks as derived: for one operation and one sequence of sampled bits the two variants agree at the
logical level: every `tms`, every `tdo`, and the `tdi` of every data cycle of a shift; for a TCLK operation `SBW` adds one
cycle with the new level. -/
def Obligations.VariantsAgreeAtTheLogicalLevel : Prop :=
  (∀ (i : Instr) (s u s' u' : State), isShift i = true → s.cfg.link = .jtag4 → u.cfg.link = .sbw →
    (∀ j < cyclesIn i + dataWidth i + 2, answerAt j s = answerAt j u) → exec i s = .next s' → exec i u = .next u' →
    (logicalCycles s.pins (newEvents s s')).map (fun c => (c.tms, c.tdo)) =
      (logicalCycles u.pins (newEvents u u')).map (fun c => (c.tms, c.tdo)) ∧
    ∀ k < dataWidth i, ((logicalCycles s.pins (newEvents s s'))[cyclesIn i + k]?).map (·.tdi) =
      ((logicalCycles u.pins (newEvents u u'))[cyclesIn i + k]?).map (·.tdi)) ∧
  (∀ (s s' : State) (v : Bit), exec (if v then .tclkSet else .tclkClear) s = .next s' →
    (logicalCycles s.pins (newEvents s s')).map (fun c => (c.tms, c.tdi)) =
      match s.cfg.link with
      | .jtag4 => []
      | .sbw => [(false, v)])
end

