-- ==== Sys2Proof/Laws/Decode.lean ====
section
/-! SUPPORT. The decoder row by row, and the fields of an encoded word. -/

namespace Sys2Proof

/-- The decoder as the rows of R72 in turn. -/
theorem decode_rows (w : CmdWord) :
    decode w =
      if w &&& 0xFFFF00#24 = 0x000000#24 then some (.irShift (w.extractLsb' 0 8))
      else if w &&& 0xFFFF00#24 = 0x010000#24 then some (.drShift8 (w.extractLsb' 0 8))
      else if w &&& 0xFF0000#24 = 0x020000#24 then some (.drShift16 (w.extractLsb' 0 16))
      else if w &&& 0xFFFFFF#24 = 0x030000#24 then some .tclkClear
      else if w &&& 0xFFFFFF#24 = 0x040000#24 then some .tclkSet
      else none := by
  simp only [decode, opRows, List.find?, selectsRow, beq_eq_decide]
  by_cases h1 : w &&& 0xFFFF00#24 = 0x000000#24
  · simp [h1, operandsOf]
  by_cases h2 : w &&& 0xFFFF00#24 = 0x010000#24
  · simp [h2, operandsOf]
  by_cases h3 : w &&& 0xFF0000#24 = 0x020000#24
  · simp [h1, h2, h3, operandsOf]
  by_cases h4 : w &&& 0xFFFFFF#24 = 0x030000#24
  · simp [h1, h2, h3, h4, operandsOf]
  by_cases h5 : w &&& 0xFFFFFF#24 = 0x040000#24 <;> simp [h1, h2, h3, h4, h5, operandsOf]

/-- Masking out the bits below `k` leaves what stands from bit `k` on. -/
theorem and_high_toNat (w : CmdWord) :
    (w &&& 0xFFFF00#24).toNat = w.toNat / 2 ^ 8 * 2 ^ 8 ∧ (w &&& 0xFF0000#24).toNat = w.toNat / 2 ^ 16 * 2 ^ 16 ∧
      w &&& 0xFFFFFF#24 = w := by
  have hs : ∀ (k : Nat) (m : CmdWord), (∀ i : Fin 24, m.getLsbD i = decide (k ≤ i)) →
      (w &&& m).toNat = w.toNat / 2 ^ k * 2 ^ k := by
    intro k m hm
    have : w &&& m = (w >>> k) <<< k := by
      apply BitVec.eq_of_getLsbD_eq
      intro i hi
      have := hm ⟨i, hi⟩
      simp only at this
      simp only [BitVec.getLsbD_and, BitVec.getLsbD_shiftLeft, BitVec.getLsbD_ushiftRight, this, hi]
      by_cases h : i < k
      · simp [h, show ¬ k ≤ i by omega]
      · simp [h, show k ≤ i by omega]
    rw [this, BitVec.toNat_shiftLeft, BitVec.toNat_ushiftRight, Nat.shiftLeft_eq, Nat.shiftRight_eq_div_pow]
    exact Nat.mod_eq_of_lt (lt_of_le_of_lt (Nat.div_mul_le_self _ _) w.isLt)
  refine ⟨hs 8 _ (by decide), hs 16 _ (by decide), ?_⟩
  have := hs 0 0xFFFFFF#24 (by decide)
  apply BitVec.eq_of_toNat_eq
  simpa using this

/-- The rows' tests on the fields of the word, as numbers. -/
theorem rows_toNat (w : CmdWord) :
    (w &&& 0xFFFF00#24 = 0x000000#24 ↔ w.toNat < 2 ^ 8) ∧
    (w &&& 0xFFFF00#24 = 0x010000#24 ↔ w.toNat / 2 ^ 8 = 2 ^ 8) ∧
    (w &&& 0xFF0000#24 = 0x020000#24 ↔ w.toNat / 2 ^ 16 = 2) ∧
    (w &&& 0xFFFFFF#24 = 0x030000#24 ↔ w.toNat = 3 * 2 ^ 16) ∧
    (w &&& 0xFFFFFF#24 = 0x040000#24 ↔ w.toNat = 4 * 2 ^ 16) := by
  obtain ⟨h8, h16, h0⟩ := and_high_toNat w
  have e : ∀ (x y : CmdWord), x = y ↔ x.toNat = y.toNat := fun _ _ => BitVec.toNat_inj.symm
  refine ⟨?_, ?_, ?_, ?_, ?_⟩
  · rw [e, h8]; simp only [BitVec.toNat_ofNat]; omega
  · rw [e, h8]; simp only [BitVec.toNat_ofNat]; omega
  · rw [e, h16]; simp only [BitVec.toNat_ofNat]; omega
  · rw [h0, e]; simp
  · rw [h0, e]; simp

/-- R79: the encoder's words as numbers. -/
theorem encode_toNat (i : Instr) : (encode i).toNat = match i with
    | .irShift d => d.toNat
    | .drShift8 d => 2 ^ 16 + d.toNat
    | .drShift16 d => 2 * 2 ^ 16 + d.toNat
    | .tclkClear => 3 * 2 ^ 16
    | .tclkSet => 4 * 2 ^ 16 := by
  cases i with
  | irShift d =>
    have := d.isLt
    simp only [encode, BitVec.toNat_append, Nat.shiftLeft_eq]
    simp
  | drShift8 d =>
    have := d.isLt
    simp only [encode, BitVec.toNat_append]
    rw [← Nat.shiftLeft_add_eq_or_of_lt (by simpa using d.isLt)]
    simp [Nat.shiftLeft_eq]
  | drShift16 d =>
    have := d.isLt
    simp only [encode, BitVec.toNat_append]
    rw [← Nat.shiftLeft_add_eq_or_of_lt (by simpa using d.isLt)]
    simp [Nat.shiftLeft_eq]
  | tclkClear => rfl
  | tclkSet => rfl

end Sys2Proof
end

