-- ==== Sys2Proof/Laws/State.lean ====
section
/-! SUPPORT. For each update of the state, what every field is after it. -/

namespace Sys2Proof.Machine

variable (s : State)

@[simp] theorem emit_cfg (e : PinEvent) : (emit e s).cfg = s.cfg := rfl
@[simp] theorem emit_tap (e : PinEvent) : (emit e s).tap = s.tap := rfl
@[simp] theorem emit_tclkLatch (e : PinEvent) : (emit e s).tclkLatch = s.tclkLatch := rfl
@[simp] theorem emit_pins (e : PinEvent) : (emit e s).pins = applyEvent e s.pins := rfl
@[simp] theorem emit_opnd (e : PinEvent) : (emit e s).opnd = s.opnd := rfl
@[simp] theorem emit_acc (e : PinEvent) : (emit e s).acc = s.acc := rfl
@[simp] theorem emit_cycle (e : PinEvent) : (emit e s).cycle = s.cycle := rfl
@[simp] theorem emit_slot (e : PinEvent) : (emit e s).slot = s.slot := rfl
@[simp] theorem emit_busy (e : PinEvent) : (emit e s).busy = s.busy := rfl
@[simp] theorem emit_trace (e : PinEvent) : (emit e s).trace = s.trace ++ [e] := rfl
@[simp] theorem emit_constructed (e : PinEvent) : (emit e s).constructed = s.constructed := rfl
@[simp] theorem emit_target (e : PinEvent) : (emit e s).target = s.target := rfl
@[simp] theorem emit_inputs (e : PinEvent) : (emit e s).inputs = s.inputs := rfl
@[simp] theorem emit_responses (e : PinEvent) : (emit e s).responses = s.responses := rfl
@[simp] theorem emit_answers (e : PinEvent) : (emit e s).answers = s.answers := rfl
@[simp] theorem emit_draws (e : PinEvent) : (emit e s).draws = s.draws := rfl

@[simp] theorem enterSlot_cfg (x : Slot) : (enterSlot x s).cfg = s.cfg := rfl
@[simp] theorem enterSlot_tap (x : Slot) : (enterSlot x s).tap = s.tap := rfl
@[simp] theorem enterSlot_tclkLatch (x : Slot) : (enterSlot x s).tclkLatch = s.tclkLatch := rfl
@[simp] theorem enterSlot_pins (x : Slot) : (enterSlot x s).pins = s.pins := rfl
@[simp] theorem enterSlot_opnd (x : Slot) : (enterSlot x s).opnd = s.opnd := rfl
@[simp] theorem enterSlot_acc (x : Slot) : (enterSlot x s).acc = s.acc := rfl
@[simp] theorem enterSlot_cycle (x : Slot) : (enterSlot x s).cycle = s.cycle := rfl
@[simp] theorem enterSlot_slot (x : Slot) : (enterSlot x s).slot = x := rfl
@[simp] theorem enterSlot_busy (x : Slot) : (enterSlot x s).busy = s.busy := rfl
@[simp] theorem enterSlot_trace (x : Slot) : (enterSlot x s).trace = s.trace := rfl
@[simp] theorem enterSlot_constructed (x : Slot) : (enterSlot x s).constructed = s.constructed := rfl
@[simp] theorem enterSlot_target (x : Slot) : (enterSlot x s).target = s.target := rfl
@[simp] theorem enterSlot_inputs (x : Slot) : (enterSlot x s).inputs = s.inputs := rfl
@[simp] theorem enterSlot_responses (x : Slot) : (enterSlot x s).responses = s.responses := rfl
@[simp] theorem enterSlot_answers (x : Slot) : (enterSlot x s).answers = s.answers := rfl
@[simp] theorem enterSlot_draws (x : Slot) : (enterSlot x s).draws = s.draws := rfl

@[simp] theorem writeLatch_cfg (v : Bit) : (writeLatch v s).cfg = s.cfg := rfl
@[simp] theorem writeLatch_tap (v : Bit) : (writeLatch v s).tap = s.tap := rfl
@[simp] theorem writeLatch_tclkLatch (v : Bit) : (writeLatch v s).tclkLatch = v := rfl
@[simp] theorem writeLatch_pins (v : Bit) : (writeLatch v s).pins = s.pins := rfl
@[simp] theorem writeLatch_opnd (v : Bit) : (writeLatch v s).opnd = s.opnd := rfl
@[simp] theorem writeLatch_acc (v : Bit) : (writeLatch v s).acc = s.acc := rfl
@[simp] theorem writeLatch_cycle (v : Bit) : (writeLatch v s).cycle = s.cycle := rfl
@[simp] theorem writeLatch_slot (v : Bit) : (writeLatch v s).slot = s.slot := rfl
@[simp] theorem writeLatch_busy (v : Bit) : (writeLatch v s).busy = s.busy := rfl
@[simp] theorem writeLatch_trace (v : Bit) : (writeLatch v s).trace = s.trace := rfl
@[simp] theorem writeLatch_constructed (v : Bit) : (writeLatch v s).constructed = s.constructed := rfl
@[simp] theorem writeLatch_target (v : Bit) : (writeLatch v s).target = s.target := rfl
@[simp] theorem writeLatch_inputs (v : Bit) : (writeLatch v s).inputs = s.inputs := rfl
@[simp] theorem writeLatch_responses (v : Bit) : (writeLatch v s).responses = s.responses := rfl
@[simp] theorem writeLatch_answers (v : Bit) : (writeLatch v s).answers = s.answers := rfl
@[simp] theorem writeLatch_draws (v : Bit) : (writeLatch v s).draws = s.draws := rfl

@[simp] theorem advanceTap_cfg (t : Bit) : (advanceTap t s).cfg = s.cfg := rfl
@[simp] theorem advanceTap_tap (t : Bit) : (advanceTap t s).tap = tapNext s.tap t := rfl
@[simp] theorem advanceTap_tclkLatch (t : Bit) : (advanceTap t s).tclkLatch = s.tclkLatch := rfl
@[simp] theorem advanceTap_pins (t : Bit) : (advanceTap t s).pins = s.pins := rfl
@[simp] theorem advanceTap_opnd (t : Bit) : (advanceTap t s).opnd = s.opnd := rfl
@[simp] theorem advanceTap_acc (t : Bit) : (advanceTap t s).acc = s.acc := rfl
@[simp] theorem advanceTap_cycle (t : Bit) : (advanceTap t s).cycle = s.cycle := rfl
@[simp] theorem advanceTap_slot (t : Bit) : (advanceTap t s).slot = s.slot := rfl
@[simp] theorem advanceTap_busy (t : Bit) : (advanceTap t s).busy = s.busy := rfl
@[simp] theorem advanceTap_trace (t : Bit) : (advanceTap t s).trace = s.trace := rfl
@[simp] theorem advanceTap_constructed (t : Bit) : (advanceTap t s).constructed = s.constructed := rfl
@[simp] theorem advanceTap_target (t : Bit) : (advanceTap t s).target = s.target := rfl
@[simp] theorem advanceTap_inputs (t : Bit) : (advanceTap t s).inputs = s.inputs := rfl
@[simp] theorem advanceTap_responses (t : Bit) : (advanceTap t s).responses = s.responses := rfl
@[simp] theorem advanceTap_answers (t : Bit) : (advanceTap t s).answers = s.answers := rfl
@[simp] theorem advanceTap_draws (t : Bit) : (advanceTap t s).draws = s.draws := rfl

@[simp] theorem loadOperand_cfg (d : BitVec 16) : (loadOperand d s).cfg = s.cfg := rfl
@[simp] theorem loadOperand_tap (d : BitVec 16) : (loadOperand d s).tap = s.tap := rfl
@[simp] theorem loadOperand_tclkLatch (d : BitVec 16) : (loadOperand d s).tclkLatch = s.tclkLatch := rfl
@[simp] theorem loadOperand_pins (d : BitVec 16) : (loadOperand d s).pins = s.pins := rfl
@[simp] theorem loadOperand_opnd (d : BitVec 16) : (loadOperand d s).opnd = d := rfl
@[simp] theorem loadOperand_acc (d : BitVec 16) : (loadOperand d s).acc = 0 := rfl
@[simp] theorem loadOperand_cycle (d : BitVec 16) : (loadOperand d s).cycle = 0 := rfl
@[simp] theorem loadOperand_slot (d : BitVec 16) : (loadOperand d s).slot = s.slot := rfl
@[simp] theorem loadOperand_busy (d : BitVec 16) : (loadOperand d s).busy = s.busy := rfl
@[simp] theorem loadOperand_trace (d : BitVec 16) : (loadOperand d s).trace = s.trace := rfl
@[simp] theorem loadOperand_constructed (d : BitVec 16) : (loadOperand d s).constructed = s.constructed := rfl
@[simp] theorem loadOperand_target (d : BitVec 16) : (loadOperand d s).target = s.target := rfl
@[simp] theorem loadOperand_inputs (d : BitVec 16) : (loadOperand d s).inputs = s.inputs := rfl
@[simp] theorem loadOperand_responses (d : BitVec 16) : (loadOperand d s).responses = s.responses := rfl
@[simp] theorem loadOperand_answers (d : BitVec 16) : (loadOperand d s).answers = s.answers := rfl
@[simp] theorem loadOperand_draws (d : BitVec 16) : (loadOperand d s).draws = s.draws := rfl

@[simp] theorem accept_cfg : (accept s).cfg = s.cfg := rfl
@[simp] theorem accept_tap : (accept s).tap = s.tap := rfl
@[simp] theorem accept_tclkLatch : (accept s).tclkLatch = s.tclkLatch := rfl
@[simp] theorem accept_pins : (accept s).pins = s.pins := rfl
@[simp] theorem accept_opnd : (accept s).opnd = s.opnd := rfl
@[simp] theorem accept_acc : (accept s).acc = s.acc := rfl
@[simp] theorem accept_cycle : (accept s).cycle = s.cycle := rfl
@[simp] theorem accept_slot : (accept s).slot = s.slot := rfl
@[simp] theorem accept_busy : (accept s).busy = true := rfl
@[simp] theorem accept_trace : (accept s).trace = s.trace := rfl
@[simp] theorem accept_constructed : (accept s).constructed = s.constructed := rfl
@[simp] theorem accept_target : (accept s).target = s.target := rfl
@[simp] theorem accept_inputs : (accept s).inputs = s.inputs := rfl
@[simp] theorem accept_responses : (accept s).responses = s.responses := rfl
@[simp] theorem accept_answers : (accept s).answers = s.answers := rfl
@[simp] theorem accept_draws : (accept s).draws = s.draws := rfl

@[simp] theorem respond_cfg (r : RspWord) : (respond r s).cfg = s.cfg := rfl
@[simp] theorem respond_tap (r : RspWord) : (respond r s).tap = s.tap := rfl
@[simp] theorem respond_tclkLatch (r : RspWord) : (respond r s).tclkLatch = s.tclkLatch := rfl
@[simp] theorem respond_pins (r : RspWord) : (respond r s).pins = s.pins := rfl
@[simp] theorem respond_opnd (r : RspWord) : (respond r s).opnd = s.opnd := rfl
@[simp] theorem respond_acc (r : RspWord) : (respond r s).acc = s.acc := rfl
@[simp] theorem respond_cycle (r : RspWord) : (respond r s).cycle = s.cycle := rfl
@[simp] theorem respond_slot (r : RspWord) : (respond r s).slot = s.slot := rfl
@[simp] theorem respond_busy (r : RspWord) : (respond r s).busy = false := rfl
@[simp] theorem respond_trace (r : RspWord) : (respond r s).trace = s.trace := rfl
@[simp] theorem respond_constructed (r : RspWord) : (respond r s).constructed = s.constructed := rfl
@[simp] theorem respond_target (r : RspWord) : (respond r s).target = { s.target with tclk := logicalTclk s } := rfl
@[simp] theorem respond_inputs (r : RspWord) : (respond r s).inputs = s.inputs := rfl
@[simp] theorem respond_responses (r : RspWord) : (respond r s).responses = s.responses ++ [r] := rfl
@[simp] theorem respond_answers (r : RspWord) : (respond r s).answers = s.answers := rfl
@[simp] theorem respond_draws (r : RspWord) : (respond r s).draws = s.draws := rfl

@[simp] theorem driveIdlePattern_cfg : (driveIdlePattern s).cfg = s.cfg := rfl
@[simp] theorem driveIdlePattern_tap : (driveIdlePattern s).tap = s.tap := rfl
@[simp] theorem driveIdlePattern_tclkLatch : (driveIdlePattern s).tclkLatch = s.tclkLatch := rfl
@[simp] theorem driveIdlePattern_pins : (driveIdlePattern s).pins = idlePins s.cfg := rfl
@[simp] theorem driveIdlePattern_opnd : (driveIdlePattern s).opnd = s.opnd := rfl
@[simp] theorem driveIdlePattern_acc : (driveIdlePattern s).acc = s.acc := rfl
@[simp] theorem driveIdlePattern_cycle : (driveIdlePattern s).cycle = s.cycle := rfl
@[simp] theorem driveIdlePattern_slot : (driveIdlePattern s).slot = s.slot := rfl
@[simp] theorem driveIdlePattern_busy : (driveIdlePattern s).busy = s.busy := rfl
@[simp] theorem driveIdlePattern_trace : (driveIdlePattern s).trace = s.trace := rfl
@[simp] theorem driveIdlePattern_constructed : (driveIdlePattern s).constructed = true := rfl
@[simp] theorem driveIdlePattern_target : (driveIdlePattern s).target = { s.target with tclk := s.cfg.tclkLatchReset } := rfl
@[simp] theorem driveIdlePattern_inputs : (driveIdlePattern s).inputs = s.inputs := rfl
@[simp] theorem driveIdlePattern_responses : (driveIdlePattern s).responses = s.responses := rfl
@[simp] theorem driveIdlePattern_answers : (driveIdlePattern s).answers = s.answers := rfl
@[simp] theorem driveIdlePattern_draws : (driveIdlePattern s).draws = s.draws := rfl

@[simp] theorem acquireTarget_cfg : (acquireTarget s).cfg = s.cfg := rfl
@[simp] theorem acquireTarget_tap : (acquireTarget s).tap = s.tap := rfl
@[simp] theorem acquireTarget_tclkLatch : (acquireTarget s).tclkLatch = s.tclkLatch := rfl
@[simp] theorem acquireTarget_pins : (acquireTarget s).pins = s.pins := rfl
@[simp] theorem acquireTarget_opnd : (acquireTarget s).opnd = s.opnd := rfl
@[simp] theorem acquireTarget_acc : (acquireTarget s).acc = s.acc := rfl
@[simp] theorem acquireTarget_cycle : (acquireTarget s).cycle = s.cycle := rfl
@[simp] theorem acquireTarget_slot : (acquireTarget s).slot = s.slot := rfl
@[simp] theorem acquireTarget_busy : (acquireTarget s).busy = s.busy := rfl
@[simp] theorem acquireTarget_trace : (acquireTarget s).trace = s.trace := rfl
@[simp] theorem acquireTarget_constructed : (acquireTarget s).constructed = s.constructed := rfl
@[simp] theorem acquireTarget_target : (acquireTarget s).target = { tapIdle := true, tclk := logicalTclk s } := rfl
@[simp] theorem acquireTarget_inputs : (acquireTarget s).inputs = s.inputs := rfl
@[simp] theorem acquireTarget_responses : (acquireTarget s).responses = s.responses := rfl
@[simp] theorem acquireTarget_answers : (acquireTarget s).answers = s.answers := rfl
@[simp] theorem acquireTarget_draws : (acquireTarget s).draws = s.draws := rfl

@[simp] theorem hardReset_cfg : (hardReset s).cfg = s.cfg := rfl
@[simp] theorem hardReset_tap : (hardReset s).tap = .runTestIdle := rfl
@[simp] theorem hardReset_tclkLatch : (hardReset s).tclkLatch = s.cfg.tclkLatchReset := rfl
@[simp] theorem hardReset_pins : (hardReset s).pins = unconstructedPins s.cfg s.draws := rfl
@[simp] theorem hardReset_opnd : (hardReset s).opnd = 0 := rfl
@[simp] theorem hardReset_acc : (hardReset s).acc = 0 := rfl
@[simp] theorem hardReset_cycle : (hardReset s).cycle = 0 := rfl
@[simp] theorem hardReset_slot : (hardReset s).slot = .tms := rfl
@[simp] theorem hardReset_busy : (hardReset s).busy = false := rfl
@[simp] theorem hardReset_trace : (hardReset s).trace = [] := rfl
@[simp] theorem hardReset_constructed : (hardReset s).constructed = false := rfl
@[simp] theorem hardReset_target : (hardReset s).target = { tapIdle := false, tclk := s.target.tclk } := rfl
@[simp] theorem hardReset_inputs : (hardReset s).inputs = s.inputs := rfl
@[simp] theorem hardReset_responses : (hardReset s).responses = s.responses := rfl
@[simp] theorem hardReset_answers : (hardReset s).answers = s.answers := rfl
@[simp] theorem hardReset_draws : (hardReset s).draws = s.draws + 1 := rfl

@[simp] theorem useAnswer_cfg : (useAnswer s).cfg = s.cfg := by unfold useAnswer; split <;> rfl
@[simp] theorem useAnswer_tap : (useAnswer s).tap = s.tap := by unfold useAnswer; split <;> rfl
@[simp] theorem useAnswer_tclkLatch : (useAnswer s).tclkLatch = s.tclkLatch := by unfold useAnswer; split <;> rfl
@[simp] theorem useAnswer_pins : (useAnswer s).pins = s.pins := by unfold useAnswer; split <;> rfl
@[simp] theorem useAnswer_opnd : (useAnswer s).opnd = s.opnd := by unfold useAnswer; split <;> rfl
@[simp] theorem useAnswer_acc : (useAnswer s).acc = s.acc := by unfold useAnswer; split <;> rfl
@[simp] theorem useAnswer_cycle : (useAnswer s).cycle = s.cycle := by unfold useAnswer; split <;> rfl
@[simp] theorem useAnswer_slot : (useAnswer s).slot = s.slot := by unfold useAnswer; split <;> rfl
@[simp] theorem useAnswer_busy : (useAnswer s).busy = s.busy := by unfold useAnswer; split <;> rfl
@[simp] theorem useAnswer_trace : (useAnswer s).trace = s.trace := by unfold useAnswer; split <;> rfl
@[simp] theorem useAnswer_constructed : (useAnswer s).constructed = s.constructed := by unfold useAnswer; split <;> rfl
@[simp] theorem useAnswer_target : (useAnswer s).target = s.target := by unfold useAnswer; split <;> rfl
@[simp] theorem useAnswer_inputs : (useAnswer s).inputs = s.inputs := by unfold useAnswer; split <;> rfl
@[simp] theorem useAnswer_responses : (useAnswer s).responses = s.responses := by unfold useAnswer; split <;> rfl

@[simp] theorem useAnswer_answers : (useAnswer s).answers = s.answers.tail := by
  unfold useAnswer; split <;> simp_all

@[simp] theorem useAnswer_draws :
    (useAnswer s).draws = s.draws + if s.answers = [] then 1 else 0 := by
  unfold useAnswer; split <;> simp_all

@[simp] theorem useAnswers_cfg (m : Nat) : (useAnswers m s).cfg = s.cfg := by
  induction m generalizing s with
  | zero => rfl
  | succ m ih => rw [useAnswers, ih, useAnswer_cfg]
@[simp] theorem useAnswers_tap (m : Nat) : (useAnswers m s).tap = s.tap := by
  induction m generalizing s with
  | zero => rfl
  | succ m ih => rw [useAnswers, ih, useAnswer_tap]
@[simp] theorem useAnswers_tclkLatch (m : Nat) : (useAnswers m s).tclkLatch = s.tclkLatch := by
  induction m generalizing s with
  | zero => rfl
  | succ m ih => rw [useAnswers, ih, useAnswer_tclkLatch]
@[simp] theorem useAnswers_pins (m : Nat) : (useAnswers m s).pins = s.pins := by
  induction m generalizing s with
  | zero => rfl
  | succ m ih => rw [useAnswers, ih, useAnswer_pins]
@[simp] theorem useAnswers_opnd (m : Nat) : (useAnswers m s).opnd = s.opnd := by
  induction m generalizing s with
  | zero => rfl
  | succ m ih => rw [useAnswers, ih, useAnswer_opnd]
@[simp] theorem useAnswers_acc (m : Nat) : (useAnswers m s).acc = s.acc := by
  induction m generalizing s with
  | zero => rfl
  | succ m ih => rw [useAnswers, ih, useAnswer_acc]
@[simp] theorem useAnswers_cycle (m : Nat) : (useAnswers m s).cycle = s.cycle := by
  induction m generalizing s with
  | zero => rfl
  | succ m ih => rw [useAnswers, ih, useAnswer_cycle]
@[simp] theorem useAnswers_slot (m : Nat) : (useAnswers m s).slot = s.slot := by
  induction m generalizing s with
  | zero => rfl
  | succ m ih => rw [useAnswers, ih, useAnswer_slot]
@[simp] theorem useAnswers_busy (m : Nat) : (useAnswers m s).busy = s.busy := by
  induction m generalizing s with
  | zero => rfl
  | succ m ih => rw [useAnswers, ih, useAnswer_busy]
@[simp] theorem useAnswers_trace (m : Nat) : (useAnswers m s).trace = s.trace := by
  induction m generalizing s with
  | zero => rfl
  | succ m ih => rw [useAnswers, ih, useAnswer_trace]
@[simp] theorem useAnswers_constructed (m : Nat) : (useAnswers m s).constructed = s.constructed := by
  induction m generalizing s with
  | zero => rfl
  | succ m ih => rw [useAnswers, ih, useAnswer_constructed]
@[simp] theorem useAnswers_target (m : Nat) : (useAnswers m s).target = s.target := by
  induction m generalizing s with
  | zero => rfl
  | succ m ih => rw [useAnswers, ih, useAnswer_target]
@[simp] theorem useAnswers_inputs (m : Nat) : (useAnswers m s).inputs = s.inputs := by
  induction m generalizing s with
  | zero => rfl
  | succ m ih => rw [useAnswers, ih, useAnswer_inputs]
@[simp] theorem useAnswers_responses (m : Nat) : (useAnswers m s).responses = s.responses := by
  induction m generalizing s with
  | zero => rfl
  | succ m ih => rw [useAnswers, ih, useAnswer_responses]

/-! The configuration and the reset state. -/

@[simp] theorem resetOf_cfg (c : Config) : (State.resetOf c).cfg = c := rfl
@[simp] theorem resetOf_tap (c : Config) : (State.resetOf c).tap = .runTestIdle := rfl
@[simp] theorem resetOf_tclkLatch (c : Config) : (State.resetOf c).tclkLatch = c.tclkLatchReset := rfl
@[simp] theorem resetOf_pins (c : Config) : (State.resetOf c).pins = idlePins c := rfl
@[simp] theorem resetOf_opnd (c : Config) : (State.resetOf c).opnd = 0 := rfl
@[simp] theorem resetOf_acc (c : Config) : (State.resetOf c).acc = 0 := rfl
@[simp] theorem resetOf_cycle (c : Config) : (State.resetOf c).cycle = 0 := rfl
@[simp] theorem resetOf_slot (c : Config) : (State.resetOf c).slot = .tms := rfl
@[simp] theorem resetOf_busy (c : Config) : (State.resetOf c).busy = false := rfl
@[simp] theorem resetOf_trace (c : Config) : (State.resetOf c).trace = [] := rfl
@[simp] theorem resetOf_constructed (c : Config) : (State.resetOf c).constructed = true := rfl
@[simp] theorem resetOf_target (c : Config) : (State.resetOf c).target = { tapIdle := false, tclk := c.tclkLatchReset } := rfl
@[simp] theorem resetOf_inputs (c : Config) : (State.resetOf c).inputs = [] := rfl
@[simp] theorem resetOf_responses (c : Config) : (State.resetOf c).responses = [] := rfl
@[simp] theorem resetOf_answers (c : Config) : (State.resetOf c).answers = [] := rfl
@[simp] theorem resetOf_draws (c : Config) : (State.resetOf c).draws = 0 := rfl

end Sys2Proof.Machine
end

