-- ==== Sys2Proof/Laws/Events.lean ====
section
/-! SUPPORT. Emitting a list of events, using up answers, and one TAP cycle in closed form: everything `tapCycle` can do. -/

namespace Sys2Proof.Machine

/-- The pin registers after a list of events (R28). -/
def applyEvents (p : Pins) (es : List PinEvent) : Pins := es.foldl (fun q e => applyEvent e q) p

/-- `Emit` of each event of a list, in order. -/
def emitAll (es : List PinEvent) (s : State) : State :=
  { s with trace := s.trace ++ es, pins := applyEvents s.pins es }

@[simp] theorem applyEvents_nil (p : Pins) : applyEvents p [] = p := rfl

@[simp] theorem applyEvents_cons (p : Pins) (e : PinEvent) (es : List PinEvent) :
    applyEvents p (e :: es) = applyEvents (applyEvent e p) es := rfl

theorem applyEvents_append (p : Pins) (es fs : List PinEvent) :
    applyEvents p (es ++ fs) = applyEvents (applyEvents p es) fs := List.foldl_append

@[simp] theorem emitAll_nil (s : State) : emitAll [] s = s := by simp [emitAll]

theorem emit_eq_emitAll (e : PinEvent) (s : State) : emit e s = emitAll [e] s := rfl

theorem emitAll_emitAll (es fs : List PinEvent) (s : State) :
    emitAll fs (emitAll es s) = emitAll (es ++ fs) s := by
  simp [emitAll, applyEvents_append]

@[simp] theorem applyEvent_sample (l : Line) (b : Bit) (p : Pins) : applyEvent (.sample l b) p = p := by
  cases l <;> cases p <;> rfl

/-- One spec lemma for `Sample`: its event, and the answer used up. -/
theorem sample_eq (l : Line) (s : State) :
    sample l s = (answerAt 0 s, useAnswer (emitAll [.sample l (answerAt 0 s)] s)) := by
  simp [sample, emitAll]

theorem useAnswer_emitAll (es : List PinEvent) (s : State) :
    useAnswer (emitAll es s) = emitAll es (useAnswer s) := by
  unfold useAnswer emitAll
  dsimp only
  split <;> rfl

@[simp] theorem answerAt_emitAll (j : Nat) (es : List PinEvent) (s : State) :
    answerAt j (emitAll es s) = answerAt j s := rfl

@[simp] theorem answerAt_enterSlot (j : Nat) (x : Slot) (s : State) :
    answerAt j (enterSlot x s) = answerAt j s := rfl

@[simp] theorem answerAt_writeLatch (j : Nat) (v : Bit) (s : State) :
    answerAt j (writeLatch v s) = answerAt j s := rfl

@[simp] theorem answerAt_advanceTap (j : Nat) (t : Bit) (s : State) :
    answerAt j (advanceTap t s) = answerAt j s := rfl

@[simp] theorem answerAt_accept (j : Nat) (s : State) : answerAt j (accept s) = answerAt j s := rfl

@[simp] theorem answerAt_loadOperand (j : Nat) (d : BitVec 16) (s : State) :
    answerAt j (loadOperand d s) = answerAt j s := rfl

/-- The answers move up by one when one is used. -/
@[simp] theorem answerAt_useAnswer (j : Nat) (s : State) : answerAt j (useAnswer s) = answerAt (j + 1) s := by
  unfold answerAt
  rcases h : s.answers with _ | ⟨b, bs⟩
  · simp [h, Nat.add_comm, Nat.add_left_comm]
  · simp [h]

theorem answerAt_useAnswers (m j : Nat) (s : State) : answerAt j (useAnswers m s) = answerAt (j + m) s := by
  induction m generalizing s with
  | zero => rfl
  | succ m ih => rw [useAnswers, ih, answerAt_useAnswer, Nat.add_assoc]

theorem useAnswers_emitAll (m : Nat) (es : List PinEvent) (s : State) :
    useAnswers m (emitAll es s) = emitAll es (useAnswers m s) := by
  induction m generalizing s with
  | zero => rfl
  | succ m ih => rw [useAnswers, useAnswer_emitAll, ih, useAnswers]

theorem useAnswer_comm (m : Nat) (s : State) : useAnswers m (useAnswer s) = useAnswer (useAnswers m s) := by
  induction m generalizing s with
  | zero => rfl
  | succ m ih => rw [useAnswers, ih, useAnswers]

/-- What one TAP cycle leaves beside the events: the answer used up, the tracker moved on, the last slot. -/
def afterCycle (tms : Bit) (s : State) : State :=
  { useAnswer s with
    tap := tapNext s.tap tms,
    slot := match s.cfg.link with
      | .jtag4 => s.slot
      | .sbw => .restore }

/-- One spec lemma for `TapCycle` (R103 to R114): its events, in both variants, and what else it changes. -/
theorem tapCycle_eq (tms : Bit) (tdi : Option Bit) (s : State) :
    tapCycle tms tdi s =
      (answerAt 0 s,
       emitAll (cycleEvents s.cfg s.tclkLatch s.tap ⟨tms, tdi⟩ (answerAt 0 s)) (afterCycle tms s)) := by
  rcases s with ⟨⟨link, pm, lr, ts, tb⟩, tap, latch, pins, opnd, acc, cyc, slot, busy, trace, con, tgt, inp, rsp, ans, dr⟩
  cases link
  · cases tdi <;> rcases ans with _ | ⟨a, as⟩ <;>
      simp [tapCycle, lineCycle, cycle4, driveTdi, cycleEvents, cycle4Events, sample, emit, useAnswer, answerAt,
        advanceTap, emitAll, afterCycle]
  · cases ts <;> rcases ans with _ | ⟨a, as⟩ <;> cases latch <;> cases h : tapNext tap tms == .runTestIdle <;>
      simp [tapCycle, lineCycle, cycleSbw, slotTms, slotTdi, slotTdo, restore, pulse, idleSlot, cycleEvents,
        cycleSbwEvents, slotTmsEvents, slotTdiEvents, slotTdoEvents, restoreEvents, entersIdle, h, sample, emit,
        useAnswer, answerAt, advanceTap, enterSlot, emitAll, afterCycle]

/-- One spec lemma for the `SBW` branch of `Tclk` (R150). -/
theorem tclkCycle_eq (v : Bit) (s : State) :
    tclkCycle v s =
      emitAll (slotTmsEvents (entersIdle s.tap false) s.tclkLatch false ++ slotTdiEvents v ++
          slotTdoEvents s.cfg.tdoSample (answerAt 0 s) ++ restoreEvents v)
        { useAnswer s with tap := tapNext s.tap false, slot := .restore, tclkLatch := v } := by
  rcases s with ⟨⟨link, pm, lr, ts, tb⟩, tap, latch, pins, opnd, acc, cyc, slot, busy, trace, con, tgt, inp, rsp, ans, dr⟩
  cases ts <;> rcases ans with _ | ⟨a, as⟩ <;> cases latch <;> cases h : tapNext tap false == .runTestIdle <;>
    simp [tclkCycle, slotTms, slotTdi, slotTdo, restore, pulse, idleSlot, writeLatch,
      slotTmsEvents, slotTdiEvents, slotTdoEvents, restoreEvents, entersIdle, h, sample, emit,
      useAnswer, answerAt, advanceTap, enterSlot, emitAll]

end Sys2Proof.Machine
end

