-- ==== Sys2Proof/Laws/Shift.lean ====
section
/-! SUPPORT. `Shift(kind, N, data)` in closed form (R130), and the accumulator's value (R134). -/

namespace Sys2Proof.Machine

/-- Successive TAP cycles, their sampled bits left where the trace shows them. -/
def runCycles : List Cycle → State → State
  | [], s => s
  | c :: cs, s => runCycles cs (tapCycle c.tms c.tdi s).2

theorem runCycles_append (cs ds : List Cycle) (s : State) :
    runCycles (cs ++ ds) s = runCycles ds (runCycles cs s) := by
  induction cs generalizing s with
  | nil => rfl
  | cons c cs ih => exact ih _

/-- The slot successive cycles leave (R32). -/
def slotAfter (l : Link) (cs : List Cycle) (x : Slot) : Slot :=
  match l, cs with
  | .sbw, _ :: _ => .restore
  | _, _ => x

/-- Everything successive TAP cycles change. -/
theorem runCycles_eq (cs : List Cycle) (s : State) :
    runCycles cs s =
      emitAll (cyclesEvents s.cfg s.tclkLatch s.tap cs (fun j => answerAt j s))
        { useAnswers cs.length s with tap := tapAfter s.tap cs, slot := slotAfter s.cfg.link cs s.slot } := by
  induction cs generalizing s with
  | nil => cases s.cfg.link <;> simp [runCycles, cyclesEvents, useAnswers, tapAfter, slotAfter]
  | cons c cs ih =>
    rw [runCycles, ih, tapCycle_eq]
    have hs : ∀ (es : List PinEvent) (t : State), (emitAll es t).cfg = t.cfg ∧ (emitAll es t).tclkLatch = t.tclkLatch ∧
        (emitAll es t).tap = t.tap ∧ (emitAll es t).slot = t.slot := fun _ _ => ⟨rfl, rfl, rfl, rfl⟩
    have ha : ∀ j, answerAt j (afterCycle c.tms s) = answerAt (j + 1) s := fun j => by
      rw [← answerAt_useAnswer]; rfl
    have hu : ∀ (m : Nat) (u : State) (q : TapState) (x : Slot),
        useAnswers m { u with tap := q, slot := x } = { useAnswers m u with tap := q, slot := x } := by
      intro m
      induction m with
      | zero => intros; rfl
      | succ m im =>
        intro u q x
        have h1 : useAnswer { u with tap := q, slot := x } = { useAnswer u with tap := q, slot := x } := by
          unfold useAnswer; dsimp only; split <;> rfl
        rw [useAnswers, h1, im, useAnswers]
    have hc : (afterCycle c.tms s).cfg = s.cfg := useAnswer_cfg s
    have hl : (afterCycle c.tms s).tclkLatch = s.tclkLatch := useAnswer_tclkLatch s
    simp only [hs, hc, hl, answerAt_emitAll, ha, useAnswers_emitAll, List.length_cons, useAnswers, cyclesEvents]
    rw [← emitAll_emitAll]
    unfold afterCycle
    rw [hu]
    cases hk : s.cfg.link <;> cases cs <;> simp [slotAfter, tapAfter, emitAll]

/-- The accumulator and the loop's index set to given values. -/
def setAcc (a : BitVec 16) (i : Nat) (s : State) : State := { s with acc := a, cycle := i }

theorem tapCycle_setAcc (tms : Bit) (tdi : Option Bit) (a : BitVec 16) (i : Nat) (s : State) :
    tapCycle tms tdi (setAcc a i s) = ((tapCycle tms tdi s).1, setAcc a i (tapCycle tms tdi s).2) := by
  rw [tapCycle_eq, tapCycle_eq]
  simp only [setAcc, emitAll, afterCycle, useAnswer, answerAt]
  cases s.answers <;> rfl

theorem runCycles_setAcc (cs : List Cycle) (a : BitVec 16) (i : Nat) (s : State) :
    runCycles cs (setAcc a i s) = setAcc a i (runCycles cs s) := by
  induction cs generalizing s with
  | nil => rfl
  | cons c cs ih => rw [runCycles, tapCycle_setAcc, ih, runCycles]

/-- The accumulator after `k` data cycles that sample `a 0`, `a 1`, … -/
def accAfter : Nat → (Nat → Bit) → BitVec 16 → BitVec 16
  | 0, _, x => x
  | k + 1, a, x => accAfter k (fun j => a (j + 1)) (accumulate x (a 0))

/-- Data cycle `i` of `n`, its bit taken from `s.opnd`. -/
def operandCycle (n : Nat) (opnd : BitVec 16) (i : Nat) : Cycle := ⟨lastCycle n i, some (operandBit opnd i)⟩

theorem tapCycle_keeps (tms : Bit) (tdi : Option Bit) (s : State) :
    (tapCycle tms tdi s).2.opnd = s.opnd ∧ (tapCycle tms tdi s).2.acc = s.acc ∧
      (tapCycle tms tdi s).2.cycle = s.cycle ∧ (tapCycle tms tdi s).1 = answerAt 0 s ∧
      ∀ j, answerAt j (tapCycle tms tdi s).2 = answerAt (j + 1) s := by
  rw [tapCycle_eq]
  refine ⟨useAnswer_opnd s, useAnswer_acc s, useAnswer_cycle s, rfl, fun j => ?_⟩
  rw [← answerAt_useAnswer]; rfl

/-- The loop of R130: `k` data cycles from index `s.cycle`. -/
theorem dataCycles_eq (n k : Nat) (s : State) :
    dataCycles n k s =
      setAcc (accAfter k (fun j => answerAt j s) s.acc) (s.cycle + k)
        (runCycles ((List.range' s.cycle k).map (operandCycle n s.opnd)) s) := by
  induction k generalizing s with
  | zero => simp [dataCycles, accAfter, setAcc, runCycles]
  | succ k ih =>
    obtain ⟨ho, ha, hc, hb, hj⟩ := tapCycle_keeps (lastCycle n s.cycle) (some (operandBit s.opnd s.cycle)) s
    have hd : dataCycle n s = setAcc (accumulate s.acc (answerAt 0 s)) (s.cycle + 1)
        (tapCycle (lastCycle n s.cycle) (some (operandBit s.opnd s.cycle)) s).2 := by
      simp only [dataCycle, ha, hb, hc, setAcc]
    have hw : ∀ (a : BitVec 16) (i j : Nat) (u : State), answerAt j (setAcc a i u) = answerAt j u := fun _ _ _ _ => rfl
    rw [dataCycles, hd, ih, runCycles_setAcc]
    simp only [hw, hj]
    rw [List.range'_succ, List.map_cons, runCycles]
    simp only [setAcc, ho, operandCycle, accAfter, Nat.add_assoc, Nat.add_comm 1 k]

theorem loadOperand_runCycles (cs : List Cycle) (d : BitVec 16) (s : State) :
    runCycles cs (loadOperand d s) = loadOperand d (runCycles cs s) := by
  have h : ∀ tms tdi u, tapCycle tms tdi (loadOperand d u) =
      ((tapCycle tms tdi u).1, loadOperand d (tapCycle tms tdi u).2) := by
    intro tms tdi u
    rw [tapCycle_eq, tapCycle_eq]
    simp only [loadOperand, emitAll, afterCycle, useAnswer, answerAt]
    cases u.answers <;> rfl
  induction cs generalizing s with
  | nil => rfl
  | cons c cs ih => rw [runCycles, h, ih, runCycles]

theorem enterShift_eq (kind : ShiftKind) (s : State) : enterShift kind s = runCycles (enterCycles kind) s := by
  cases kind <;> rfl

theorem operandCycles_eq (n : Nat) (hn : n ≤ 16) (data : BitVec n) :
    (List.range' 0 n).map (operandCycle n (data.setWidth 16)) = dataCyclesOf n data := by
  rw [dataCyclesOf, List.range_eq_range']
  apply List.map_congr_left
  intro i hi
  have : i < n := by simpa using hi
  simp only [operandCycle, lastCycle, operandBit, BitVec.getLsbD_setWidth]
  simp [show i < 16 by omega]

/-- R134, bit by bit, for the accumulator itself. -/
theorem accAfter_getLsbD (k : Nat) (a : Nat → Bit) (x : BitVec 16) (j : Nat) (hj : j < 16) :
    (accAfter k a x).getLsbD j = if j < k then a (k - 1 - j) else x.getLsbD (j - k) := by
  induction k generalizing a x with
  | zero => simp [accAfter]
  | succ k ih =>
    rw [accAfter, ih]
    by_cases h1 : j < k
    · rw [if_pos h1, if_pos (by omega)]
      congr 1; omega
    · rw [if_neg h1]
      by_cases h2 : j = k
      · subst h2
        simp [accumulate]
      · rw [if_neg (by omega)]
        have : j - k = (j - (k + 1)) + 1 := by omega
        rw [this]
        simp [accumulate, BitVec.getLsbD_setWidth]
        omega

theorem resultValue_succ (k : Nat) (a : Nat → Bit) :
    resultValue (k + 1) a = (a 0).toNat * 2 ^ k + resultValue k (fun j => a (j + 1)) := by
  simp only [resultValue, List.range_succ_eq_map, List.map_cons, List.sum_cons, List.map_map, Nat.add_sub_cancel,
    Nat.sub_zero]
  congr 2
  apply List.map_congr_left
  intro i _
  simp only [Function.comp_apply, Nat.succ_eq_add_one]
  congr 2; omega

theorem resultValue_lt (k : Nat) (a : Nat → Bit) : resultValue k a < 2 ^ k := by
  induction k generalizing a with
  | zero => simp [resultValue]
  | succ k ih =>
    rw [resultValue_succ, Nat.pow_succ]
    have := ih (fun j => a (j + 1))
    have hb : (a 0).toNat ≤ 1 := by cases a 0 <;> simp
    nlinarith [Nat.mul_le_mul_right (2 ^ k) hb]

theorem accumulate_toNat (x : BitVec 16) (b : Bit) : (accumulate x b).toNat = (2 * x.toNat + b.toNat) % 2 ^ 16 := by
  have hx := x.isLt
  have hy : (x <<< 1).toNat = ((x.toNat % 2 ^ 15) <<< 1) := by
    rw [BitVec.toNat_shiftLeft, Nat.shiftLeft_eq, Nat.shiftLeft_eq]; omega
  have hb : ((BitVec.ofBool b).setWidth 16).toNat = b.toNat := by cases b <;> rfl
  rw [accumulate, BitVec.toNat_or, hy, hb, ← Nat.shiftLeft_add_eq_or_of_lt (by cases b <;> decide), Nat.shiftLeft_eq]
  cases b <;> simp <;> omega

/-- R134: the accumulator's value, from 0, after at most 16 data cycles; no set bit passes bit `k - 1`. -/
theorem accAfter_toNat (k : Nat) (hk : k ≤ 16) (a : Nat → Bit) : (accAfter k a 0).toNat = resultValue k a := by
  have h : ∀ (m : Nat) (a : Nat → Bit) (x : BitVec 16),
      (accAfter m a x).toNat = (x.toNat * 2 ^ m + resultValue m a) % 2 ^ 16 := by
    intro m
    induction m with
    | zero => intro a x; simp [accAfter, resultValue, Nat.mod_eq_of_lt x.isLt]
    | succ m ih =>
      intro a x
      rw [accAfter, ih, accumulate_toNat, resultValue_succ, Nat.add_mod, Nat.mod_mul_mod, ← Nat.add_mod]
      congr 1; ring
  rw [h, Nat.mod_eq_of_lt]
  · simp
  · have := resultValue_lt k a
    have := Nat.pow_le_pow_right (n := 2) (by omega) hk
    simp; omega

end Sys2Proof.Machine
end

