-- ==== Sys2Proof/Laws/Replay.lean ====
section
/-! SUPPORT. The event lists of the rules are legal (R27), and what each leaves in the pin registers (R28, R33, R34). -/

namespace Sys2Proof.Machine

theorem replay_append (p : Pins) (es fs : List PinEvent) :
    replay p (es ++ fs) = (replay p es).bind fun q => replay q fs := by
  induction es generalizing p with
  | nil => rfl
  | cons e es ih =>
    simp only [List.cons_append, replay]
    split
    · exact ih _
    · rfl

theorem applyEvents_of_replay {p q : Pins} {es : List PinEvent} (h : replay p es = some q) :
    applyEvents p es = q := by
  induction es generalizing p with
  | nil => simpa [replay] using h
  | cons e es ih =>
    simp only [replay] at h
    split at h
    · exact ih h
    · cases h

/-- The 4-wire registers after one cycle (R105, R106). -/
def jtag4Cycle (p : Jtag4Pins) (c : Cycle) : Jtag4Pins :=
  { tck := true, tms := c.tms, tdi := c.tdi.getD p.tdi, tclk := p.tclk }

theorem replay_cycle4 (p : Jtag4Pins) (c : Cycle) (b : Bit) :
    replay (.jtag4 p) (cycle4Events c b) = some (.jtag4 (jtag4Cycle p c)) := by
  rcases c with ⟨t, _ | d⟩ <;> rfl

/-- The SBW registers after a whole cycle that restores the level `v` (R113). -/
theorem replay_sbw (p : SbwPins) (idle old tms u v b : Bit) (ts : TdoSample) :
    replay (.sbw p) (slotTmsEvents idle old tms ++ slotTdiEvents u ++ slotTdoEvents ts b ++ restoreEvents v) =
      some (.sbw { sbwtck := true, tdioOut := v, tdioDir := .output }) := by
  cases idle <;> cases old <;> cases ts <;> rfl

theorem replay_cycleSbw (p : SbwPins) (ts : TdoSample) (latch : Bit) (q : TapState) (c : Cycle) (b : Bit) :
    replay (.sbw p) (cycleSbwEvents ts latch q c b) =
      some (.sbw { sbwtck := true, tdioOut := latch, tdioDir := .output }) := replay_sbw _ _ _ _ _ _ _ _

theorem replay_cycles4 (cfg : Config) (hl : cfg.link = .jtag4) (latch : Bit) (q : TapState) (cs : List Cycle)
    (a : Nat → Bit) (p : Jtag4Pins) :
    replay (.jtag4 p) (cyclesEvents cfg latch q cs a) = some (.jtag4 (cs.foldl jtag4Cycle p)) := by
  induction cs generalizing p q a with
  | nil => rfl
  | cons c cs ih =>
    rw [cyclesEvents, replay_append, cycleEvents, hl]
    simp [replay_cycle4, ih]

theorem replay_cyclesSbw (cfg : Config) (hl : cfg.link = .sbw) (latch : Bit) (q : TapState) (cs : List Cycle)
    (a : Nat → Bit) (p : SbwPins) (hp : p = { sbwtck := true, tdioOut := latch, tdioDir := .output }) :
    replay (.sbw p) (cyclesEvents cfg latch q cs a) = some (.sbw p) := by
  subst hp
  induction cs generalizing q a with
  | nil => rfl
  | cons c cs ih =>
    rw [cyclesEvents, replay_append, cycleEvents, hl]
    simp [replay_cycleSbw, ih]

/-- A shift is one of three widths and kinds; what its cycles do to the tracker and to the 4-wire registers is read off
`shiftCycles`. -/
theorem tapAfter_shiftCycles8 (kind : ShiftKind) (d : BitVec 8) :
    tapAfter .runTestIdle (shiftCycles kind 8 d) = .runTestIdle := by cases kind <;> rfl

theorem tapAfter_shiftCycles16 (kind : ShiftKind) (d : BitVec 16) :
    tapAfter .runTestIdle (shiftCycles kind 16 d) = .runTestIdle := by cases kind <;> rfl

theorem jtag4_shiftCycles8 (kind : ShiftKind) (d : BitVec 8) (p : Jtag4Pins) :
    (shiftCycles kind 8 d).foldl jtag4Cycle p =
      { tck := true, tms := false, tdi := d.getLsbD 7, tclk := p.tclk } := by cases kind <;> rfl

theorem jtag4_shiftCycles16 (kind : ShiftKind) (d : BitVec 16) (p : Jtag4Pins) :
    (shiftCycles kind 16 d).foldl jtag4Cycle p =
      { tck := true, tms := false, tdi := d.getLsbD 15, tclk := p.tclk } := by cases kind <;> rfl

end Sys2Proof.Machine
end

