-- ==== Sys2Proof/Laws/Exec.lean ====
section
/-! SUPPORT. When an operation runs (R184), and the one state it then answers, in closed form. -/

namespace Sys2Proof.Machine

theorem pinsIdle_iff (s : State) : pinsIdle s = true ↔ PinsIdle s := by
  unfold pinsIdle PinsIdle SbwPinsIdle Jtag4PinsIdle
  rcases hl : s.cfg.link <;> rcases hp : s.pins with ⟨tck, tms, tdi, tclk⟩ | ⟨ck, o, d⟩ <;> simp
  all_goals cases ck <;> cases d <;> simp

theorem cfg_wf_iff (c : Config) : c.wf = false ↔ c.link = .jtag4 ∧ c.tclkBinding = .sharedWithTdi := by
  unfold Config.wf
  cases c.link <;> cases c.tclkBinding <;> simp

/-- R184: the model refuses exactly the states that are no launch state. -/
theorem launchRefusal_none_iff (s : State) : launchRefusal s = none ↔ Launch s := by
  constructor
  · intro h
    unfold launchRefusal at h
    repeat' split at h
    all_goals try cases h
    rename_i h1 h2 h3 h4 h5 h6 h7
    exact ⟨by simpa using h1, by simpa using h2, by simpa using h3, by simpa using h4,
      (pinsIdle_iff s).1 (by simpa using h5), by simpa using h6, fun h => h7 ((cfg_wf_iff _).2 h)⟩
  · rintro ⟨h1, h2, h3, h4, h5, h6, h7⟩
    have h5' := (pinsIdle_iff s).2 h5
    have h7' : ¬ s.cfg.wf = false := fun h => h7 ((cfg_wf_iff _).1 h)
    simp [launchRefusal, h1, h2, h3, h4, h5', h6, h7']

theorem perform_launch {s : State} (h : Launch s) (op : State → RspWord × State) :
    perform op s = .next (respond (op (accept s)).1 (op (accept s)).2) := by
  rw [perform, (launchRefusal_none_iff s).2 h]

/-- R74: the fields of a legal command's response. -/
@[simp] theorem rspIllegal_okResponse (d : BitVec 16) : rspIllegal (okResponse d) = false := by
  have : ((0#1 ++ d).getLsbD 16) = false := by
    rw [BitVec.getLsbD_append]; simp
  exact this

@[simp] theorem rspData_okResponse (d : BitVec 16) : rspData (okResponse d) = d := by
  apply BitVec.eq_of_toNat_eq
  have h : (0#1 ++ d).toNat = d.toNat := by rw [BitVec.toNat_append]; simp
  rw [rspData, BitVec.extractLsb'_toNat, okResponse, h, Nat.shiftRight_zero, Nat.mod_eq_of_lt d.isLt]

/-- The response of each operation (R74): for a shift, its result zero-extended. -/
def opResponse (i : Instr) (s : State) : RspWord :=
  okResponse (BitVec.ofNat 16 (resultValue (dataWidth i) fun j => answerAt (cyclesIn i + j) s))

/-- The samples each operation takes (R137, R155). -/
def opSamples (i : Instr) (s : State) : Nat :=
  match i, s.cfg.link with
  | .irShift _, _ => 14
  | .drShift8 _, _ => 13
  | .drShift16 _, _ => 21
  | .tclkClear, .jtag4 => 0
  | .tclkClear, .sbw => 1
  | .tclkSet, .jtag4 => 0
  | .tclkSet, .sbw => 1

/-- The latch after each operation (R24, R150). -/
def opLatch (i : Instr) (s : State) : Bit :=
  match i, s.cfg.link with
  | .tclkClear, .sbw => false
  | .tclkSet, .sbw => true
  | _, _ => s.tclkLatch

/-- The pin registers after each operation (R33, R34, R150). -/
def opPins (i : Instr) (s : State) : Pins :=
  match s.pins with
  | .sbw _ => .sbw { sbwtck := true, tdioOut := opLatch i s, tdioDir := .output }
  | .jtag4 p =>
    match i with
    | .irShift d => .jtag4 { tck := true, tms := false, tdi := d.getLsbD 7, tclk := p.tclk }
    | .drShift8 d => .jtag4 { tck := true, tms := false, tdi := d.getLsbD 7, tclk := p.tclk }
    | .drShift16 d => .jtag4 { tck := true, tms := false, tdi := d.getLsbD 15, tclk := p.tclk }
    | .tclkClear => .jtag4 { p with tclk := false }
    | .tclkSet => .jtag4 { p with tclk := true }

/-- The logical TCLK level after each operation (R151, R152, R135). -/
def opTclk (i : Instr) (s : State) : Bit :=
  match i with
  | .tclkClear => false
  | .tclkSet => true
  | _ => logicalTclk s

/-- Everything an operation does from a launch state. -/
def opResult (i : Instr) (s : State) : State :=
  { useAnswers (opSamples i s) s with
    tclkLatch := opLatch i s
    pins := opPins i s
    opnd := if isShift i then operandOf i else s.opnd
    acc := if isShift i then accAfter (dataWidth i) (fun j => answerAt (cyclesIn i + j) s) 0 else s.acc
    cycle := if isShift i then dataWidth i else s.cycle
    slot := match s.cfg.link with
      | .jtag4 => s.slot
      | .sbw => .restore
    trace := s.trace ++ opEvents i s
    responses := s.responses ++ [opResponse i s]
    target := { s.target with tclk := opTclk i s } }

theorem Launch.link_pins {s : State} (h : Launch s) :
    (s.cfg.link = .jtag4 ∧ ∃ tdi tclk, s.pins = .jtag4 { tck := true, tms := false, tdi := tdi, tclk := tclk }) ∨
    (s.cfg.link = .sbw ∧ s.pins = .sbw { sbwtck := true, tdioOut := s.tclkLatch, tdioDir := .output }) := by
  have := h.pins
  unfold PinsIdle at this
  cases hl : s.cfg.link <;> rw [hl] at this
  · exact .inl ⟨rfl, this⟩
  · exact .inr ⟨rfl, this⟩

/-- The events of an operation from a launch state are legal, and leave `opPins`. -/
theorem replay_opEvents {s : State} (h : Launch s) (i : Instr) :
    replay s.pins (opEvents i s) = some (opPins i s) := by
  rcases h.link_pins with ⟨hl, tdi, tc, hp⟩ | ⟨hl, hp⟩
  · rw [opPins, hp]
    cases i <;> dsimp only [opEvents, shiftEvents]
    · rw [replay_cycles4 _ hl, jtag4_shiftCycles8]
    · rw [replay_cycles4 _ hl, jtag4_shiftCycles8]
    · rw [replay_cycles4 _ hl, jtag4_shiftCycles16]
    · rw [tclkEvents, hl]; rfl
    · rw [tclkEvents, hl]; rfl
  · rw [opPins, hp]
    cases i <;> simp only [opEvents, shiftEvents, opLatch, hl]
    · rw [replay_cyclesSbw _ hl _ _ _ _ _ rfl]
    · rw [replay_cyclesSbw _ hl _ _ _ _ _ rfl]
    · rw [replay_cyclesSbw _ hl _ _ _ _ _ rfl]
    · rw [tclkEvents, hl]; exact replay_sbw _ _ _ _ _ _ _ _
    · rw [tclkEvents, hl]; exact replay_sbw _ _ _ _ _ _ _ _

theorem shift_eq (kind : ShiftKind) (n : Nat) (hn : n ≤ 16) (data : BitVec n) (s : State) :
    (shift kind n data s).2 =
      setAcc (accAfter n (fun j => answerAt ((enterCycles kind).length + j) s) 0) n
        (runCycles (shiftCycles kind n data) (loadOperand (data.setWidth 16) s)) := by
  have hk : ∀ (cs : List Cycle) (u : State), (runCycles cs u).opnd = u.opnd ∧ (runCycles cs u).acc = u.acc ∧
      (runCycles cs u).cycle = u.cycle ∧ ∀ j, answerAt j (runCycles cs u) = answerAt (cs.length + j) u := by
    intro cs
    induction cs with
    | nil => intro u; exact ⟨rfl, rfl, rfl, fun j => by rw [List.length_nil, Nat.zero_add]; rfl⟩
    | cons c cs ih =>
      intro u
      obtain ⟨h1, h2, h3, _, h5⟩ := tapCycle_keeps c.tms c.tdi u
      obtain ⟨i1, i2, i3, i4⟩ := ih (tapCycle c.tms c.tdi u).2
      refine ⟨i1.trans h1, i2.trans h2, i3.trans h3, fun j => ?_⟩
      rw [runCycles, i4, h5, List.length_cons]
      congr 1; omega
  have hl : ∀ (u : State), leaveShift u = runCycles leaveCycles u := fun _ => rfl
  obtain ⟨h1, h2, h3, h4⟩ := hk (enterCycles kind) (loadOperand (data.setWidth 16) s)
  rw [shift]
  simp only [hl, enterShift_eq, dataCycles_eq, h1, h2, h3, h4, loadOperand_opnd, loadOperand_acc, loadOperand_cycle,
    operandCycles_eq n hn, runCycles_setAcc, Nat.zero_add, shiftCycles, runCycles_append, answerAt_loadOperand]

theorem useAnswers_accept (m : Nat) (s : State) : useAnswers m (accept s) = accept (useAnswers m s) := by
  induction m generalizing s with
  | zero => rfl
  | succ m ih =>
    have : useAnswer (accept s) = accept (useAnswer s) := by
      unfold useAnswer accept; dsimp only; split <;> rfl
    rw [useAnswers, this, ih, useAnswers]

theorem useAnswers_loadOperand (m : Nat) (d : BitVec 16) (s : State) :
    useAnswers m (loadOperand d s) = loadOperand d (useAnswers m s) := by
  induction m generalizing s with
  | zero => rfl
  | succ m ih =>
    have : useAnswer (loadOperand d s) = loadOperand d (useAnswer s) := by
      unfold useAnswer loadOperand; dsimp only; split <;> rfl
    rw [useAnswers, this, ih, useAnswers]

theorem shiftCycles_length (kind : ShiftKind) (n : Nat) (data : BitVec n) :
    (shiftCycles kind n data).length = (enterCycles kind).length + n + 2 := by
  simp [shiftCycles, dataCyclesOf, leaveCycles, Nat.add_assoc]

theorem slotAfter_shiftCycles (l : Link) (kind : ShiftKind) (n : Nat) (data : BitVec n) (x : Slot) :
    slotAfter l (shiftCycles kind n data) x = match l with
      | .jtag4 => x
      | .sbw => .restore := by
  cases kind <;> cases l <;> rfl

theorem opTclk_eq {s : State} (h : Launch s) (i : Instr) (t : State) (hp : t.pins = opPins i s)
    (hl : t.tclkLatch = opLatch i s) : logicalTclk t = opTclk i s := by
  unfold logicalTclk
  rw [hp, hl, opPins]
  rcases h.link_pins with ⟨hk, tdi, tc, hq⟩ | ⟨hk, hq⟩ <;>
    cases i <;> simp [hq, opTclk, opLatch, hk, logicalTclk]

theorem accAfter_ofNat (k : Nat) (hk : k ≤ 16) (a : Nat → Bit) :
    accAfter k a 0 = BitVec.ofNat 16 (resultValue k a) := by
  rw [← accAfter_toNat k hk a, BitVec.ofNat_toNat, BitVec.setWidth_eq]

theorem accAfter_narrow (k : Nat) (hk : k ≤ 16) (a : Nat → Bit) :
    ((accAfter k a 0).setWidth k).setWidth 16 = BitVec.ofNat 16 (resultValue k a) := by
  apply BitVec.eq_of_toNat_eq
  have h1 := resultValue_lt k a
  have h2 := Nat.pow_le_pow_right (n := 2) (by omega) hk
  rw [BitVec.toNat_setWidth, BitVec.toNat_setWidth, accAfter_toNat k hk, BitVec.toNat_ofNat, Nat.mod_eq_of_lt h1]

/-- Every field of the state a shift ends in, from a launch state. -/
theorem respond_shift {s : State} (h : Launch s) (i : Instr) (kind : ShiftKind) (n : Nat) (hn : n ≤ 16) (data : BitVec n)
    (hs : isShift i = true) (hw : dataWidth i = n) (hc : cyclesIn i = (enterCycles kind).length)
    (he : opEvents i s = shiftEvents kind n data s) (ho : operandOf i = data.setWidth 16)
    (ht : tapAfter .runTestIdle (shiftCycles kind n data) = .runTestIdle)
    (hm : opSamples i s = (enterCycles kind).length + n + 2) (hl : opLatch i s = s.tclkLatch) :
    respond (opResponse i s) (shift kind n data (accept s)).2 = opResult i s := by
  have hp := applyEvents_of_replay (replay_opEvents h i)
  rw [he, shiftEvents] at hp
  have hq := opTclk_eq h i (opResult i s) rfl rfl
  have ha : ∀ j, answerAt j (loadOperand (data.setWidth 16) (accept s)) = answerAt j s := fun _ => rfl
  rw [shift_eq kind n hn, runCycles_eq]
  simp only [logicalTclk, opResult] at hq
  apply State.ext <;>
    simp [opResult, setAcc, emitAll, useAnswers_loadOperand, useAnswers_accept, he, hs, hw, hc, ho, ht, hm, hl, hp, ha,
      h.tap, h.idle, shiftEvents, shiftCycles_length, slotAfter_shiftCycles, logicalTclk, ← hq]

/-- Every field of the state a TCLK operation ends in, from a launch state. -/
theorem respond_tclk {s : State} (h : Launch s) (i : Instr) (v : Bit) (hs : isShift i = false)
    (he : opEvents i s = tclkEvents v s) (hr : opResponse i s = okResponse 0)
    (hm : opSamples i s = match s.cfg.link with | .jtag4 => 0 | .sbw => 1)
    (hl : opLatch i s = match s.cfg.link with | .jtag4 => s.tclkLatch | .sbw => v) :
    respond (okResponse 0) (tclk v (accept s)) = opResult i s := by
  have hp := applyEvents_of_replay (replay_opEvents h i)
  rw [he] at hp
  have hq := opTclk_eq h i (opResult i s) rfl rfl
  simp only [logicalTclk, opResult] at hq
  have hc : s.cfg.link = (accept s).cfg.link := rfl
  unfold tclk
  cases hk : s.cfg.link <;> rw [← hc, hk] <;> rw [hk] at hm hl <;> simp only [tclkEvents, hk] at he hp
  · apply State.ext <;>
      simp [opResult, emit_eq_emitAll, emitAll, he, hp, hm, hl, hs, hr, hk, useAnswers, h.idle, logicalTclk, ← hq]
  · have hu : useAnswer (accept s) = accept (useAnswer s) := useAnswers_accept 1 s
    have hi : entersIdle (accept s).tap false = true := by rw [accept_tap, h.tap]; rfl
    simp only [List.append_assoc] at hp
    rw [tclkCycle_eq, hi, hu]
    apply State.ext <;>
      simp [opResult, emitAll, he, hp, hm, hl, hs, hr, hk, useAnswers, h.idle, h.tap, logicalTclk, ← hq, tapNext]

theorem shift_result (kind : ShiftKind) (n : Nat) (hn : n ≤ 16) (data : BitVec n) (s : State) :
    ((shift kind n data s).1).setWidth 16 =
      BitVec.ofNat 16 (resultValue n fun j => answerAt ((enterCycles kind).length + j) s) := by
  have h : (shift kind n data s).1 = ((shift kind n data s).2.acc).setWidth n := rfl
  rw [h, shift_eq kind n hn, ← accAfter_narrow n hn]
  rfl

/-- One spec lemma for the five operations: from a launch state each answers `opResult`. -/
theorem exec_launch {s : State} (h : Launch s) (i : Instr) : exec i s = .next (opResult i s) := by
  cases i with
  | irShift d =>
    rw [exec, execIrShift, perform_launch h, ← respond_shift h (.irShift d) .ir 8 (by omega) d rfl rfl rfl rfl rfl
      (tapAfter_shiftCycles8 _ _) rfl rfl, opResponse]
    exact congrArg (fun x => Host.Outcome.next (respond (okResponse x) _)) (shift_result .ir 8 (by omega) d (accept s))
  | drShift8 d =>
    rw [exec, execDrShift8, perform_launch h, ← respond_shift h (.drShift8 d) .dr 8 (by omega) d rfl rfl rfl rfl rfl
      (tapAfter_shiftCycles8 _ _) rfl rfl, opResponse]
    exact congrArg (fun x => Host.Outcome.next (respond (okResponse x) _)) (shift_result .dr 8 (by omega) d (accept s))
  | drShift16 d =>
    rw [exec, execDrShift16, perform_launch h, ← respond_shift h (.drShift16 d) .dr 16 (by omega) d rfl rfl rfl rfl
      (BitVec.setWidth_eq d).symm (tapAfter_shiftCycles16 _ _) rfl rfl, opResponse]
    have hr := shift_result .dr 16 (by omega) d (accept s)
    rw [BitVec.setWidth_eq] at hr
    exact congrArg (fun x => Host.Outcome.next (respond (okResponse x) _)) hr
  | tclkClear =>
    rw [exec, execTclkClear, perform_launch h, ← respond_tclk h .tclkClear false rfl rfl rfl]
    all_goals cases hk : s.cfg.link <;> simp [opSamples, opLatch, hk]
  | tclkSet =>
    rw [exec, execTclkSet, perform_launch h, ← respond_tclk h .tclkSet true rfl rfl rfl]
    all_goals cases hk : s.cfg.link <;> simp [opSamples, opLatch, hk]

/-- R184: from any other state each is refused. -/
theorem exec_not_launch {s : State} (h : ¬ Launch s) (i : Instr) :
    ∃ r, launchRefusal s = some r ∧ exec i s = .refused r := by
  rcases hr : launchRefusal s with _ | r
  · exact absurd ((launchRefusal_none_iff s).1 hr) h
  · refine ⟨r, rfl, ?_⟩
    cases i <;> simp [exec, execIrShift, execDrShift8, execDrShift16, execTclkClear, execTclkSet, perform, hr]

/-- What `exec` can answer: `opResult` from a launch state, and a next state from no other. -/
theorem exec_next_iff (i : Instr) (s t : State) : exec i s = .next t ↔ Launch s ∧ t = opResult i s := by
  by_cases h : Launch s
  · rw [exec_launch h]
    constructor
    · rintro ⟨⟩; exact ⟨h, rfl⟩
    · rintro ⟨_, rfl⟩; rfl
  · obtain ⟨r, _, hr⟩ := exec_not_launch h i
    rw [hr]
    exact ⟨nofun, fun ⟨h', _⟩ => absurd h' h⟩

/-- R184: every operation ends in a launch state. -/
theorem opResult_launch {s : State} (h : Launch s) (i : Instr) : Launch (opResult i s) := by
  have hq := opTclk_eq h i (opResult i s) rfl rfl
  refine ⟨by simpa [opResult] using h.idle, by simpa [opResult] using h.tap, by simpa [opResult] using h.targetTap,
    by simpa [opResult] using h.constructed, ?_, hq.symm, by simpa [opResult] using h.binding⟩
  have hc : (opResult i s).cfg = s.cfg := useAnswers_cfg s _
  unfold PinsIdle SbwPinsIdle Jtag4PinsIdle
  rw [hc]
  rcases h.link_pins with ⟨hk, tdi, tc, hp⟩ | ⟨hk, hp⟩ <;> rw [hk]
  · cases i <;> simp [opResult, opPins, hp]
  · simp [opResult, opPins, hp]

end Sys2Proof.Machine
end

