-- ==== Sys2Proof/Laws/Step.lean ====
section
/-! SUPPORT. Everything one step can do. -/

namespace Sys2Proof.Machine

/-- The state a step serves its input from: the input is taken. -/
def taken (s : State) (rest : List Input) : State := { s with inputs := rest }

@[simp] theorem taken_cfg (s : State) (rest : List Input) : (taken s rest).cfg = s.cfg := rfl
@[simp] theorem taken_tap (s : State) (rest : List Input) : (taken s rest).tap = s.tap := rfl
@[simp] theorem taken_tclkLatch (s : State) (rest : List Input) : (taken s rest).tclkLatch = s.tclkLatch := rfl
@[simp] theorem taken_pins (s : State) (rest : List Input) : (taken s rest).pins = s.pins := rfl
@[simp] theorem taken_opnd (s : State) (rest : List Input) : (taken s rest).opnd = s.opnd := rfl
@[simp] theorem taken_acc (s : State) (rest : List Input) : (taken s rest).acc = s.acc := rfl
@[simp] theorem taken_cycle (s : State) (rest : List Input) : (taken s rest).cycle = s.cycle := rfl
@[simp] theorem taken_slot (s : State) (rest : List Input) : (taken s rest).slot = s.slot := rfl
@[simp] theorem taken_busy (s : State) (rest : List Input) : (taken s rest).busy = s.busy := rfl
@[simp] theorem taken_trace (s : State) (rest : List Input) : (taken s rest).trace = s.trace := rfl
@[simp] theorem taken_constructed (s : State) (rest : List Input) : (taken s rest).constructed = s.constructed := rfl
@[simp] theorem taken_target (s : State) (rest : List Input) : (taken s rest).target = s.target := rfl
@[simp] theorem taken_inputs (s : State) (rest : List Input) : (taken s rest).inputs = rest := rfl
@[simp] theorem taken_responses (s : State) (rest : List Input) : (taken s rest).responses = s.responses := rfl
@[simp] theorem taken_answers (s : State) (rest : List Input) : (taken s rest).answers = s.answers := rfl
@[simp] theorem taken_draws (s : State) (rest : List Input) : (taken s rest).draws = s.draws := rfl

@[simp] theorem answerAt_taken (j : Nat) (s : State) (rest : List Input) : answerAt j (taken s rest) = answerAt j s := rfl

@[simp] theorem logicalTclk_taken (s : State) (rest : List Input) : logicalTclk (taken s rest) = logicalTclk s := rfl

theorem step_nil {s : State} (h : s.inputs = []) : step s = .next s := by simp [step, serveNext, h]

theorem step_cons {s : State} {inp : Input} {rest : List Input} (h : s.inputs = inp :: rest) :
    step s = serve inp (taken s rest) := by simp [step, serveNext, h, taken]

/-- What lies ahead in `inputs` has no part in a launch state. -/
theorem launch_taken {s : State} {rest : List Input} : Launch (taken s rest) ↔ Launch s :=
  ⟨fun ⟨h1, h2, h3, h4, h5, h6, h7⟩ => ⟨h1, h2, h3, h4, h5, h6, h7⟩,
   fun ⟨h1, h2, h3, h4, h5, h6, h7⟩ => ⟨h1, h2, h3, h4, h5, h6, h7⟩⟩

/-- A served command: the operation from a launch state, or the answer to an illegal word. -/
theorem issue_next {w : CmdWord} {s t : State} (h : issue w s = .next t) :
    (∃ i, decode w = some i ∧ Launch s ∧ t = opResult i s) ∨
    (decode w = none ∧ s.busy = false ∧ t = { s with responses := s.responses ++ [illegalResponse] }) := by
  unfold issue at h
  split at h
  · rename_i i hi
    obtain ⟨hl, ht⟩ := (exec_next_iff i s t).1 h
    exact .inl ⟨i, hi, hl, ht⟩
  · rename_i hi
    unfold refuseIllegal at h
    split at h
    · cases h
    · rename_i hb
      cases h
      exact .inr ⟨hi, by simpa using hb, rfl⟩

/-- The inversion lemma of `step`: each way it can answer a next state. -/
theorem step_next {s t : State} (h : step s = .next t) :
    (s.inputs = [] ∧ t = s) ∨
    ∃ inp rest, s.inputs = inp :: rest ∧
      ((∃ w i, inp = .command w ∧ decode w = some i ∧ Launch s ∧ t = opResult i (taken s rest)) ∨
       (∃ w, inp = .command w ∧ decode w = none ∧ s.busy = false ∧
          t = { taken s rest with responses := s.responses ++ [illegalResponse] }) ∨
       (inp = .reset ∧ t = hardReset (taken s rest)) ∨
       (∃ w k m, inp = .resetDuring w k ∧ t = hardReset (useAnswers m (taken s rest))) ∨
       (inp = .construct ∧ s.constructed = false ∧ s.cfg.wf = true ∧
          t = driveIdlePattern (taken s rest)) ∨
       (inp = .acquire ∧ s.busy = false ∧ s.constructed = true ∧
          t = acquireTarget (taken s rest))) := by
  rcases hi : s.inputs with _ | ⟨inp, rest⟩
  · rw [step_nil hi] at h
    cases h
    exact .inl ⟨rfl, rfl⟩
  · rw [step_cons hi] at h
    refine .inr ⟨inp, rest, rfl, ?_⟩
    cases inp with
    | command w =>
      rcases issue_next h with ⟨i, hd, hl, ht⟩ | ⟨hd, hb, ht⟩
      · exact .inl ⟨w, i, rfl, hd, launch_taken.1 hl, ht⟩
      · exact .inr (.inl ⟨w, rfl, hd, hb, ht⟩)
    | reset =>
      cases h
      exact .inr (.inr (.inl ⟨rfl, rfl⟩))
    | resetDuring w k =>
      simp only [serve, cutByReset] at h
      split at h
      · cases h
        exact .inr (.inr (.inr (.inl ⟨w, k, _, rfl, rfl⟩)))
      · cases h
      · cases h
    | construct =>
      simp only [serve, construct] at h
      split at h
      · cases h
      · split at h
        · cases h
        · rename_i h1 h2
          cases h
          exact .inr (.inr (.inr (.inr (.inl ⟨rfl, by simpa [taken] using h1, by simpa [taken] using h2, rfl⟩))))
    | acquire =>
      simp only [serve, acquire] at h
      split at h
      · cases h
      · split at h
        · cases h
        · rename_i h1 h2
          cases h
          exact .inr (.inr (.inr (.inr (.inr ⟨rfl, by simpa [taken] using h1, by simpa [taken] using h2, rfl⟩))))

/-- A command word served from a launch state. -/
theorem step_command {s : State} {w : CmdWord} {rest : List Input} (hi : s.inputs = .command w :: rest) (h : Launch s) :
    step s = .next (match decode w with
      | some i => opResult i (taken s rest)
      | none => { taken s rest with responses := s.responses ++ [illegalResponse] }) := by
  rw [step_cons hi]
  simp only [serve, issue]
  rcases decode w with _ | i
  · simp [refuseIllegal, taken, h.idle]
  · exact exec_launch (launch_taken.2 h) i

theorem step_reset {s : State} {rest : List Input} (hi : s.inputs = .reset :: rest) :
    step s = .next (hardReset (taken s rest)) := step_cons hi

theorem step_construct {s : State} {rest : List Input} (hi : s.inputs = .construct :: rest) (hc : s.constructed = false)
    (hw : s.cfg.wf = true) : step s = .next (driveIdlePattern (taken s rest)) := by
  rw [step_cons hi]
  simp [serve, construct, hc, hw]

theorem step_acquire {s : State} {rest : List Input} (hi : s.inputs = .acquire :: rest) (hb : s.busy = false)
    (hc : s.constructed = true) : step s = .next (acquireTarget (taken s rest)) := by
  rw [step_cons hi]
  simp [serve, acquire, hb, hc]

/-- The host's run, one step at a time. -/
theorem core_run_succ (M : Host.Core) {k : Nat} {s t : M.State} (h : M.step s = .next t) :
    M.run (k + 1) s = M.run k t := by
  rw [Host.Core.run.eq_2, h]

theorem run_succ {k : Nat} {s t : State} (h : step s = .next t) :
    Host.Core.run Sys2Proof.core (k + 1) s = Host.Core.run Sys2Proof.core k t := core_run_succ Sys2Proof.core h

end Sys2Proof.Machine
end

