-- ==== Sys2Proof/Laws/Observe.lean ====
section
/-! SUPPORT. What an observer of the pins (R115, R118, R135, R137) reads off the event lists of the rules, cycle by cycle. -/

namespace Sys2Proof.Machine

/-- R101, corner case, one way: an idle slot has `tms = 0`. -/
theorem entersIdle_tms {q : TapState} {tms : Bit} (h : entersIdle q tms = true) : tms = false := by
  cases tms
  · rfl
  · cases q <;> cases h

theorem logical4_cycle (tms tdi : Bit) (edge : Bit × Bit) (c : Cycle) (b : Bit) (es : List PinEvent) :
    logical4 tms tdi edge (cycle4Events c b ++ es) =
      ⟨c.tms, c.tdi.getD tdi, b⟩ :: logical4 c.tms (c.tdi.getD tdi) (c.tms, c.tdi.getD tdi) es := by
  rcases c with ⟨t, _ | d⟩ <;> rfl

/-- An SBW cycle whose TDI slot shows `u` and whose restore drives `v`. -/
theorem logicalSbw_slots (line : Bit) (ts : TdoSample) (latch : Bit) (q : TapState) (tms u v b : Bit)
    (es : List PinEvent) :
    logicalSbw line [] false (slotTmsEvents (entersIdle q tms) latch tms ++ slotTdiEvents u ++ slotTdoEvents ts b ++
        restoreEvents v ++ es) =
      ⟨tms, u, b⟩ :: logicalSbw v [] false es := by
  cases h : entersIdle q tms
  · cases latch <;> cases ts <;> rfl
  · cases entersIdle_tms h
    cases latch <;> cases ts <;> rfl

/-- What the next navigation cycle's TDI shows: the level the `TDI` line has in `JTAG4` (R106), the latch in `SBW` (R111). -/
def holdAfter (l : Link) (hold : Bit) (c : Cycle) : Bit :=
  match l with
  | .jtag4 => c.tdi.getD hold
  | .sbw => hold

/-- The logical cycles of successive TAP cycles; `hold` is what a navigation cycle's TDI shows. -/
def logicalOf (l : Link) : Bit → List Cycle → (Nat → Bit) → List LogicalCycle
  | _, [], _ => []
  | hold, c :: cs, a => ⟨c.tms, c.tdi.getD hold, a 0⟩ :: logicalOf l (holdAfter l hold c) cs (fun j => a (j + 1))

theorem logicalCycles_cycles4 (cfg : Config) (hl : cfg.link = .jtag4) (latch : Bit) (q : TapState) (cs : List Cycle)
    (a : Nat → Bit) (tms tdi : Bit) (edge : Bit × Bit) :
    logical4 tms tdi edge (cyclesEvents cfg latch q cs a) = logicalOf .jtag4 tdi cs a := by
  induction cs generalizing q a tms tdi edge with
  | nil => rfl
  | cons c cs ih =>
    rw [cyclesEvents, cycleEvents, hl, logical4_cycle, ih]
    rfl

theorem logicalCycles_cyclesSbw (cfg : Config) (hl : cfg.link = .sbw) (latch : Bit) (q : TapState) (cs : List Cycle)
    (a : Nat → Bit) (line : Bit) :
    logicalSbw line [] false (cyclesEvents cfg latch q cs a) = logicalOf .sbw latch cs a := by
  induction cs generalizing q a line with
  | nil => rfl
  | cons c cs ih =>
    rw [cyclesEvents, cycleEvents, hl]
    dsimp only
    rw [cycleSbwEvents, logicalSbw_slots, ih]
    rfl

/-- R118: the logical cycles of a shift from a launch state. -/
theorem logicalCycles_shift {s : State} (h : Launch s) (kind : ShiftKind) (n : Nat) (data : BitVec n) :
    ∃ hold, logicalCycles s.pins (shiftEvents kind n data s) =
      logicalOf s.cfg.link hold (shiftCycles kind n data) (fun j => answerAt j s) := by
  rcases h.link_pins with ⟨hl, tdi, tc, hp⟩ | ⟨hl, hp⟩
  · exact ⟨tdi, by rw [hp, hl, shiftEvents, logicalCycles, logicalCycles_cycles4 _ hl]⟩
  · exact ⟨s.tclkLatch, by rw [hp, hl, shiftEvents, logicalCycles, logicalCycles_cyclesSbw _ hl]⟩

theorem logicalOf_length (l : Link) (hold : Bit) (cs : List Cycle) (a : Nat → Bit) :
    (logicalOf l hold cs a).length = cs.length := by
  induction cs generalizing hold a with
  | nil => rfl
  | cons c cs ih => rw [logicalOf, List.length_cons, ih, List.length_cons]

theorem logicalOf_tms (l : Link) (hold : Bit) (cs : List Cycle) (a : Nat → Bit) :
    (logicalOf l hold cs a).map (·.tms) = cs.map (·.tms) := by
  induction cs generalizing hold a with
  | nil => rfl
  | cons c cs ih => rw [logicalOf, List.map_cons, ih, List.map_cons]

theorem logicalOf_tdo (l : Link) (hold : Bit) (cs : List Cycle) (a : Nat → Bit) :
    (logicalOf l hold cs a).map (·.tdo) = (List.range cs.length).map a := by
  induction cs generalizing hold a with
  | nil => rfl
  | cons c cs ih =>
    rw [logicalOf, List.map_cons, ih, List.length_cons, List.range_succ_eq_map, List.map_cons, List.map_map]
    rfl

/-- A data cycle shows its own bit, whatever the line held. -/
theorem logicalOf_data (l : Link) (hold : Bit) (cs : List Cycle) (a : Nat → Bit) (k : Nat) (t d : Bit)
    (hc : cs[k]? = some ⟨t, some d⟩) : (logicalOf l hold cs a)[k]? = some ⟨t, d, a k⟩ := by
  induction cs generalizing hold a k with
  | nil => simp at hc
  | cons c cs ih =>
    cases k with
    | zero => simp at hc; subst hc; rfl
    | succ k =>
      rw [logicalOf, List.getElem?_cons_succ, ih _ _ _ (by simpa using hc)]

/-- Data cycle `k` among the cycles of a shift (R130). -/
theorem shiftCycles_data (kind : ShiftKind) (n : Nat) (data : BitVec n) (k : Nat) (hk : k < n) :
    (shiftCycles kind n data)[(enterCycles kind).length + k]? = some ⟨k + 1 == n, some (data.getLsbD k)⟩ := by
  have h2 : (dataCyclesOf n data)[k]? = some ⟨k + 1 == n, some (data.getLsbD k)⟩ := by
    simp [dataCyclesOf, hk]
  have h3 : (dataCyclesOf n data).length = n := by simp [dataCyclesOf]
  rw [shiftCycles, List.append_assoc, List.getElem?_append_right (by omega), Nat.add_sub_cancel_left,
    List.getElem?_append_left (by omega), h2]

theorem restLevels_slots (line : Bit) (ts : TdoSample) (i l t u v b : Bit) (es : List PinEvent) :
    restLevels line (slotTmsEvents i l t ++ slotTdiEvents u ++ slotTdoEvents ts b ++ restoreEvents v ++ es) =
      v :: restLevels v es := by
  cases i <;> cases l <;> cases ts <;> rfl

theorem restLevels_cycles (cfg : Config) (hl : cfg.link = .sbw) (latch : Bit) (q : TapState) (cs : List Cycle)
    (a : Nat → Bit) (line : Bit) :
    restLevels line (cyclesEvents cfg latch q cs a) = List.replicate cs.length latch := by
  induction cs generalizing q a line with
  | nil => rfl
  | cons c cs ih =>
    rw [cyclesEvents, cycleEvents, hl]
    dsimp only
    rw [cycleSbwEvents, restLevels_slots, ih]
    rfl

/-! Sizes (R137). -/

theorem cycle4_counts (c : Cycle) (b : Bit) :
    (cycle4Events c b).length = 4 + c.tdi.isSome.toNat ∧ (cycle4Events c b).countP isPulse = 1 ∧
      (cycle4Events c b).countP isSample = 1 := by
  rcases c with ⟨t, _ | d⟩ <;> exact ⟨rfl, rfl, rfl⟩

theorem cycleSbw_counts (ts : TdoSample) (latch : Bit) (q : TapState) (c : Cycle) (b : Bit) :
    (cycleSbwEvents ts latch q c b).length = 12 + (entersIdle q c.tms && latch).toNat ∧
      (cycleSbwEvents ts latch q c b).countP isPulse = 3 ∧ (cycleSbwEvents ts latch q c b).countP isSample = 1 := by
  unfold cycleSbwEvents
  cases entersIdle q c.tms <;> cases latch <;> cases ts <;> exact ⟨rfl, rfl, rfl⟩

theorem cycles4_counts (cfg : Config) (hl : cfg.link = .jtag4) (latch : Bit) (q : TapState) (cs : List Cycle)
    (a : Nat → Bit) :
    (cyclesEvents cfg latch q cs a).length = (cs.map fun c => 4 + c.tdi.isSome.toNat).sum ∧
      (cyclesEvents cfg latch q cs a).countP isPulse = cs.length ∧
      (cyclesEvents cfg latch q cs a).countP isSample = cs.length := by
  induction cs generalizing q a with
  | nil => simp [cyclesEvents]
  | cons c cs ih =>
    obtain ⟨h1, h2, h3⟩ := cycle4_counts c (a 0)
    obtain ⟨i1, i2, i3⟩ := ih (tapNext q c.tms) (fun j => a (j + 1))
    simp only [cyclesEvents, cycleEvents, hl, List.length_append, List.countP_append, List.length_cons, List.map_cons,
      List.sum_cons, h1, h2, h3, i1, i2, i3]
    exact ⟨trivial, by omega, by omega⟩

/-- How many of successive cycles are idle slots (R110). -/
def idleSlots : TapState → List Bit → Nat
  | _, [] => 0
  | q, t :: ts => (entersIdle q t).toNat + idleSlots (tapNext q t) ts

theorem cyclesSbw_counts (cfg : Config) (hl : cfg.link = .sbw) (latch : Bit) (q : TapState) (cs : List Cycle)
    (a : Nat → Bit) :
    (cyclesEvents cfg latch q cs a).length = 12 * cs.length + latch.toNat * idleSlots q (cs.map (·.tms)) ∧
      (cyclesEvents cfg latch q cs a).countP isPulse = 3 * cs.length ∧
      (cyclesEvents cfg latch q cs a).countP isSample = cs.length := by
  induction cs generalizing q a with
  | nil => simp [cyclesEvents, idleSlots]
  | cons c cs ih =>
    obtain ⟨h1, h2, h3⟩ := cycleSbw_counts cfg.tdoSample latch q c (a 0)
    obtain ⟨i1, i2, i3⟩ := ih (tapNext q c.tms) (fun j => a (j + 1))
    simp only [cyclesEvents, cycleEvents, hl, List.length_append, List.countP_append, List.length_cons, h1, h2, h3, i1,
      i2, i3, idleSlots, List.map_cons]
    refine ⟨?_, by omega, by omega⟩
    cases latch <;> simp <;> omega

/-! The state after an operation, seen from the one before it. -/

theorem newEvents_opResult (i : Instr) (s : State) : newEvents s (opResult i s) = opEvents i s := by
  simp [newEvents, opResult]

theorem logicalTclk_opResult {s : State} (h : Launch s) (i : Instr) : logicalTclk (opResult i s) = opTclk i s :=
  opTclk_eq h i _ rfl rfl

theorem answerAt_opResult (i : Instr) (s : State) (j : Nat) :
    answerAt j (opResult i s) = answerAt (j + opSamples i s) s := by
  rw [← answerAt_useAnswers]; rfl

/-- Each shift as an instance of `Shift(kind, N, data)` (R131 to R133). -/
theorem shift_shape (i : Instr) (hs : isShift i = true) :
    ∃ kind n, ∃ data : BitVec n, (∀ s, opEvents i s = shiftEvents kind n data s) ∧ dataWidth i = n ∧
      cyclesIn i = (enterCycles kind).length ∧ operandOf i = data.setWidth 16 ∧ n ≤ 16 ∧ 0 < n := by
  cases i with
  | irShift d => exact ⟨.ir, 8, d, fun _ => rfl, rfl, rfl, rfl, by omega, by omega⟩
  | drShift8 d => exact ⟨.dr, 8, d, fun _ => rfl, rfl, rfl, rfl, by omega, by omega⟩
  | drShift16 d => exact ⟨.dr, 16, d, fun _ => rfl, rfl, rfl, by simp [operandOf], by omega, by omega⟩
  | tclkClear => cases hs
  | tclkSet => cases hs

end Sys2Proof.Machine
end

