-- ==== Sys2Proof/Laws/PerInstr.lean ====
section
/-! SUPPORT. Statements about each instruction as syntax, one lemma per constructor. -/

namespace Sys2Proof.Laws.Encoding

/-- R72, R79: the encoder's word of an operation selects the row of the opcode map that the operation stands in, and is
legal by R75. -/
def Statement (i : Instr) : Prop :=
  (∃ r ∈ opRows, r.mnemonic = i.mnemonic ∧ selectsRow (encode i) r = true) ∧ wordLegal (encode i) = true

/-- A word whose decoding is `i` selects the row of `i` and is legal. -/
theorem of_fields (i : Instr) (r : OpRow) (hr : r ∈ opRows) (hm : r.mnemonic = i.mnemonic)
    (hs : encode i &&& r.mask = r.pattern) (hl : wordLegal (encode i) = true) : Statement i :=
  ⟨⟨r, hr, hm, by simp [selectsRow, hs]⟩, hl⟩

theorem irShift (d : BitVec 8) : Statement (.irShift d) :=
  of_fields _ ⟨.irShift, 0xFFFF00#24, 0x000000#24⟩ (by simp [opRows]) rfl
    (by revert d; decide) (by revert d; decide)

theorem drShift8 (d : BitVec 8) : Statement (.drShift8 d) :=
  of_fields _ ⟨.drShift8, 0xFFFF00#24, 0x010000#24⟩ (by simp [opRows]) rfl
    (by revert d; decide) (by revert d; decide)

theorem drShift16 (d : BitVec 16) : Statement (.drShift16 d) := by
  have h : (encode (.drShift16 d)).toNat / 2 ^ 16 = 2 := by
    rw [encode_toNat]
    have := d.isLt
    simp only
    omega
  have ho : opcOf (encode (.drShift16 d)) = 0x02#8 := by
    apply BitVec.eq_of_toNat_eq
    simp [opcOf, Nat.shiftRight_eq_div_pow]
    omega
  exact of_fields _ ⟨.drShift16, 0xFF0000#24, 0x020000#24⟩ (by simp [opRows]) rfl
    ((rows_toNat _).2.2.1.2 h) (by simp [wordLegal, ho])

theorem tclkClear : Statement .tclkClear :=
  of_fields _ ⟨.tclkClear, 0xFFFFFF#24, 0x030000#24⟩ (by simp [opRows]) rfl (by decide) (by decide)

theorem tclkSet : Statement .tclkSet :=
  of_fields _ ⟨.tclkSet, 0xFFFFFF#24, 0x040000#24⟩ (by simp [opRows]) rfl (by decide) (by decide)

end Sys2Proof.Laws.Encoding
end

