-- ==== Sys2Proof/Tests/Slice0.lean ====
section
/-! SUPPORT. The model's own tests, with expected results from spec/95_test_vectors.md and the rules cited, and the witnesses
that the hypotheses of the statements can be met. -/

open Sys2Proof Sys2Proof.Machine

namespace Sys2Proof.Tests

/-! Helpers. -/

def nextOf (o : Host.Outcome State Fault Refusal) : Option State :=
  match o with
  | .next t => some t
  | .fault _ => none
  | .refused _ => none

def refusalOf (o : Host.Outcome State Fault Refusal) : Option Refusal :=
  match o with
  | .next _ => none
  | .fault _ => none
  | .refused r => some r

def cfgOf (l : Link) (latch : Bit) : Config := { Config.standard with link := l, tclkLatchReset := latch }

/-- A launch state with an empty trace (spec/95_test_vectors.md part 3), the level `latch` and the answers `as`. -/
def ready (l : Link) (latch : Bit) (as : List Bit) : State :=
  acquireTarget { State.resetOf (cfgOf l latch) with answers := as }

def offered (ins : List Input) (s : State) : State := { s with inputs := ins }

/-- A state that a reset left: not constructed. -/
def fresh (l : Link) : State := hardReset (ready l true [])

/-- A binary digit string as answers, in order. -/
def bits (cs : String) : List Bit := cs.toList.map fun c => c == '1'

/-- What most tests look at: the response, the number of events, the registers of the lines, the latch. -/
def glance (o : Host.Outcome State Fault Refusal) : Option (List RspWord × Nat × Pins × Bit) :=
  (nextOf o).map fun t => (t.responses, t.trace.length, t.pins, t.tclkLatch)

/-! Well-formedness: one ill-formed term for each check. -/

/-- R75, spec/95_test_vectors.md 2.1: the nearest illegal words. -/
theorem test_wf_reserved_opcode : wordLegal 0x050000#24 = false := by decide
theorem test_wf_operand_high_bits : wordLegal 0x000100#24 = false ∧ wordLegal 0x018000#24 = false := by decide
theorem test_wf_tclk_operand : wordLegal 0x030001#24 = false ∧ wordLegal 0x04FFFF#24 = false := by decide
theorem test_wf_legal_words : wordLegal 0x0000FF#24 = true ∧ wordLegal 0x040000#24 = true := by decide

/-- R77: an operand that does not fit, is missing, or is not wanted; a result likewise. -/
theorem test_wf_operand_too_wide : (AsmLine.mk .drShift8 (some 256) none).wf = false := by decide
theorem test_wf_operand_missing : (AsmLine.mk .irShift none none).wf = false := by decide
theorem test_wf_operand_unwanted : (AsmLine.mk .tclkSet (some 0) none).wf = false := by decide
theorem test_wf_result_too_wide : (AsmLine.mk .drShift16 (some 0) (some 65536)).wf = false := by decide
theorem test_wf_result_unwanted : (AsmLine.mk .tclkClear none (some 0)).wf = false := by decide

/-- R107, R194. -/
theorem test_wf_shared_binding : Config.wf { cfgOf .jtag4 false with tclkBinding := .sharedWithTdi } = false := by decide

/-! Decoding: words written out from R71 to R73. -/

/-- `opc` 0000 0000, `opnd` 0000 0000 0001 0011. -/
theorem test_decode_ir_shift : decode 0b000000000000000000010011#24 = some (.irShift 0x13#8) := by decide
/-- `opc` 0000 0001, `opnd` 0000 0000 0101 1010. -/
theorem test_decode_dr_shift_8 : decode 0b000000010000000001011010#24 = some (.drShift8 0x5A#8) := by decide
/-- `opc` 0000 0010, `opnd` 1010 0101 0101 1010. -/
theorem test_decode_dr_shift_16 : decode 0b000000101010010101011010#24 = some (.drShift16 0xA55A#16) := by decide
/-- `opc` 0000 0011, `opnd` all 0. -/
theorem test_decode_tclk_clear : decode 0b000000110000000000000000#24 = some .tclkClear := by decide
/-- `opc` 0000 0100, `opnd` all 0. -/
theorem test_decode_tclk_set : decode 0b000001000000000000000000#24 = some .tclkSet := by decide
/-- R75. -/
theorem test_decode_illegal : decode 0b000000000000000100010011#24 = none ∧ decode 0xFFFFFF#24 = none := by decide

theorem test_decodeTableWord :
    decodeTableWord 24 0x02A55A = some (.drShift16 0xA55A#16) ∧ decodeTableWord 24 0x030001 = none := by decide

/-- The very next step after `withFetchWord` on the reset state runs the word. -/
theorem test_withFetchWord :
    (nextOf (step (State.reset.withFetchWord 24 0x02A55A))).map (fun t => (t.opnd, t.trace.length)) =
      some (0xA55A#16, 252) := by decide +kernel

/-! The operations. -/

/-- spec/95_test_vectors.md 2.5. -/
theorem test_ir_shift_sbw : glance (exec (.irShift 0x13#8) (ready .sbw true (bits "00001000100100"))) =
    some ([0x00089#17], 169, .sbw ⟨true, true, .output⟩, true) := by decide +kernel
/-- spec/95_test_vectors.md 2.3, on the 4-wire variant; R136 `tdi`: the last operand bit. -/
theorem test_ir_shift_jtag4 : glance (exec (.irShift 0x00#8) (ready .jtag4 true (bits "00001111111100"))) =
    some ([0x000FF#17], 64, .jtag4 ⟨true, false, false, true⟩, true) := by decide

/-- spec/95_test_vectors.md 2.4: the result, and the cycles nav, data0, data7 and nav of the trace. -/
theorem test_dr_shift_8_jtag4 :
    (nextOf (exec (.drShift8 0x5A#8) (ready .jtag4 false (bits "1010101101010")))).map
      (fun t => (t.responses, t.trace.take 4, (t.trace.drop 12).take 5, t.trace.drop 47)) =
    some ([0x0005A#17], [.set .tms true, .set .tck false, .set .tck true, .sample .tdo true],
      [.set .tms false, .set .tdi false, .set .tck false, .set .tck true, .sample .tdo false],
      [.set .tms true, .set .tdi false, .set .tck false, .set .tck true, .sample .tdo false,
       .set .tms true, .set .tck false, .set .tck true, .sample .tdo true,
       .set .tms false, .set .tck false, .set .tck true, .sample .tdo false]) := by decide
/-- spec/95_test_vectors.md 2.3: navigation answers are discarded. -/
theorem test_dr_shift_8_sbw : glance (exec (.drShift8 0x00#8) (ready .sbw false (bits "1110000000011"))) =
    some ([0x00000#17], 156, .sbw ⟨true, false, .output⟩, false) := by decide +kernel

/-- spec/95_test_vectors.md 2.2 and 2.7. -/
theorem test_dr_shift_16_sbw : glance (exec (.drShift16 0xA55A#16) (ready .sbw true (bits "000000100100011010000"))) =
    some ([0x01234#17], 253, .sbw ⟨true, true, .output⟩, true) := by decide +kernel
/-- spec/95_test_vectors.md 2.2: the mirror row. -/
theorem test_dr_shift_16_jtag4 : glance (exec (.drShift16 0x1234#16) (ready .jtag4 false (bits "000001011000100100000"))) =
    some ([0x02C48#17], 100, .jtag4 ⟨true, false, false, false⟩, false) := by decide +kernel

/-- spec/95_test_vectors.md 2.6, third row. -/
theorem test_tclk_clear_sbw :
    (nextOf (exec .tclkClear (ready .sbw true [false]))).map (fun t => (t.trace, t.tclkLatch)) =
    some ([.set .sbwtdio true, .set .sbwtck false, .set .sbwtdio false, .set .sbwtck true, .set .sbwtdio false,
      .set .sbwtck false, .set .sbwtck true, .dir .sbwtdio .input, .set .sbwtck false, .set .sbwtck true,
      .sample .sbwtdio false, .set .sbwtdio false, .dir .sbwtdio .output], false) := by decide
/-- spec/95_test_vectors.md 2.6, below the table. -/
theorem test_tclk_clear_jtag4 :
    (nextOf (exec .tclkClear (ready .jtag4 true []))).map (fun t => (t.trace, t.pins, t.tap)) =
    some ([.set .tclk false], .jtag4 ⟨true, false, false, false⟩, .runTestIdle) := by decide
/-- spec/95_test_vectors.md 2.6, second row. -/
theorem test_tclk_set_sbw :
    (nextOf (exec .tclkSet (ready .sbw false [false]))).map (fun t => (t.trace, t.tclkLatch)) =
    some ([.set .sbwtdio false, .set .sbwtck false, .set .sbwtck true, .set .sbwtdio true,
      .set .sbwtck false, .set .sbwtck true, .dir .sbwtdio .input, .set .sbwtck false, .set .sbwtck true,
      .sample .sbwtdio false, .set .sbwtdio true, .dir .sbwtdio .output], true) := by decide
/-- spec/95_test_vectors.md 2.6, below the table. -/
theorem test_tclk_set_jtag4 :
    (nextOf (exec .tclkSet (ready .jtag4 false []))).map (fun t => (t.trace, t.pins, t.tap)) =
    some ([.set .tclk true], .jtag4 ⟨true, false, false, true⟩, .runTestIdle) := by decide

/-- spec/95_test_vectors.md 2.5, the first cycle with `DuringLow`. -/
theorem test_during_low :
    (tapCycle true none { ready .sbw true [false] with
      cfg := { cfgOf .sbw true with tdoSample := .duringLow } }).2.trace =
    [.set .sbwtdio true, .set .sbwtck false, .set .sbwtck true, .set .sbwtdio true, .set .sbwtck false, .set .sbwtck true,
     .dir .sbwtdio .input, .set .sbwtck false, .sample .sbwtdio false, .set .sbwtck true,
     .set .sbwtdio true, .dir .sbwtdio .output] := by decide

/-! The port, reset and the refusals. -/

/-- spec/95_test_vectors.md P3, command 3. -/
theorem test_illegal_word : step (offered [.command 0x050000#24] (ready .sbw true [])) =
    .next { ready .sbw true [] with responses := [0x10000#17] } := by rfl

/-- R165: a reset after the first 12 events of a shift uses up one answer and leaves no response. -/
theorem test_reset_during :
    (nextOf (step (offered [.resetDuring 0x000013#24 12] (ready .sbw false [true, false, true])))).map
      (fun t => (t.answers, t.trace, t.responses, t.tap, t.tclkLatch)) =
    some ([false, true], [], [], .runTestIdle, false) := by decide +kernel

/-- R184: each premise that fails is refused under its name. -/
theorem test_refusals :
    [ { ready .sbw true [] with busy := true }, { ready .sbw true [] with tap := .shiftDR },
      { ready .sbw true [] with target := ⟨false, true⟩ }, { ready .sbw true [] with constructed := false },
      { ready .sbw true [] with pins := .sbw ⟨true, false, .output⟩ },
      { ready .sbw true [] with target := ⟨true, false⟩ },
      { ready .jtag4 true [] with cfg := { cfgOf .jtag4 true with tclkBinding := .sharedWithTdi } }].map
      (fun s => refusalOf (exec .tclkSet s)) =
    [some .portBusy, some .tapNotIdle, some .targetTapNotIdle, some .notConstructed, some .pinsNotIdle,
     some .targetTclkDiffers, some .tclkSharedWithTdi] := by decide

/-- Construction and acquisition out of their order (log entries 8 and 11). -/
theorem test_construct_acquire_refusals :
    refusalOf (step (offered [.construct] State.reset)) = some .alreadyConstructed ∧
    refusalOf (step (offered [.acquire] (fresh .sbw))) = some .notConstructed := by decide

/-! Witnesses: for each statement with hypotheses, concrete values that meet all of them. -/

theorem launch_ready (l : Link) (latch : Bit) (as : List Bit) : Launch (ready l latch as) :=
  (launchRefusal_none_iff _).1 (by cases l <;> cases latch <;> rfl)

theorem launch_offered (l : Link) (latch : Bit) (as : List Bit) (ins : List Input) :
    Launch (offered ins (ready l latch as)) :=
  (launchRefusal_none_iff _).1 (by cases l <;> cases latch <;> rfl)

theorem not_launch_reset : ¬ Launch State.reset := by
  intro h
  have := h.targetTap
  simp [State.reset, State.resetOf] at this

theorem witness_EncodeOfDecodeIsTheWord : decode 0x02FFFF#24 = some (.drShift16 0xFFFF#16) := by decide

/-- The three ways a word is illegal, each at its first word; and an operation that gives a next state. -/
theorem witness_IllegalWordIsRefusedWithoutEffect :
    [0x050000#24, 0x000100#24, 0x010100#24, 0x030001#24, 0x040001#24].map decode = List.replicate 5 none ∧
    (offered [.command 0x050000#24] State.reset).inputs = .command 0x050000#24 :: [] ∧
    (offered [.command 0x050000#24] State.reset).busy = false ∧
    exec .tclkSet (ready .sbw true []) = .next (opResult .tclkSet (ready .sbw true [])) :=
  ⟨by decide, rfl, rfl, exec_launch (launch_ready ..) _⟩

/-- The operands at both ends of what fits, and the first that does not. -/
theorem witness_AssemblerLinesGiveTheirOperation :
    assemble ⟨.irShift, some 255, none⟩ = some (.irShift 0xFF#8) ∧ assemble ⟨.irShift, some 256, none⟩ = none ∧
    assemble ⟨.drShift16, some 65535, none⟩ = some (.drShift16 0xFFFF#16) ∧
    assemble ⟨.drShift16, some 65536, none⟩ = none ∧ assemble ⟨.tclkSet, some 0, none⟩ = none := by decide

theorem witness_StepRunsTheDecodedOperation :
    (offered [.command 0x0000FF#24, .reset] (ready .jtag4 false [])).inputs = .command 0x0000FF#24 :: [.reset] ∧
    decode 0x0000FF#24 = some (.irShift 0xFF#8) := by decide

theorem witness_EmitAppendsAndWritesOneRegister :
    (ready .jtag4 true []).pins = .jtag4 ⟨true, false, false, true⟩ ∧
    (ready .sbw true []).pins = .sbw ⟨true, true, .output⟩ := by decide

theorem witness_SampleReturnsTheTargetsAnswer :
    (ready .sbw true [true]).answers = true :: [] ∧ (ready .sbw true []).answers = [] := by decide

theorem witness_FourWireCycleEvents :
    (ready .jtag4 false []).cfg.link = .jtag4 ∧ (ready .jtag4 false []).pins = .jtag4 ⟨true, false, false, false⟩ := by
  decide

theorem witness_SbwCycleEvents :
    (ready .sbw false []).cfg.link = .sbw ∧ (ready .sbw false []).pins = .sbw ⟨true, false, .output⟩ := by decide

theorem witness_SbwCycleLevels : (ready .sbw true []).cfg.link = .sbw ∧ SbwPinsIdle (ready .sbw true []) := ⟨rfl, rfl⟩

/-- A state for each clause, at each tracker state the clause names. -/
theorem witness_SbwTmsSlotCases :
    (∀ q ∈ [TapState.runTestIdle, .updateDR, .updateIR], ∀ v : Bit,
      ({ ready .sbw v [] with tap := q }.tap = .runTestIdle ∨ { ready .sbw v [] with tap := q }.tap = .updateDR ∨
        { ready .sbw v [] with tap := q }.tap = .updateIR) ∧ { ready .sbw v [] with tap := q }.tclkLatch = v) ∧
    ∀ q ∈ [TapState.selectDRScan, .selectIRScan, .captureDR, .captureIR, .shiftDR, .shiftIR],
      { ready .sbw true [] with tap := q }.tap = q := by decide

theorem witness_FourWireCyclesLeaveTclk :
    (ready .jtag4 true []).cfg.link = .jtag4 ∧
    { cfgOf .jtag4 true with tclkBinding := .sharedWithTdi }.link = .jtag4 := by decide

/-- `IrShiftFromLaunch`, `DrShift8FromLaunch`, `DrShift16FromLaunch`, `TclkClearFromLaunch` and `TclkSetFromLaunch`: launch
states of both variants and both levels. -/
theorem witness_FromLaunch : Launch (ready .sbw false []) ∧ Launch (ready .sbw true []) ∧
    Launch (ready .jtag4 false [true]) ∧ Launch (ready .jtag4 true [false]) :=
  ⟨launch_ready .., launch_ready .., launch_ready .., launch_ready ..⟩

theorem witness_ShiftFrame :
    isShift (.irShift 0x80#8) = true ∧ exec (.irShift 0x80#8) (ready .jtag4 true []) =
      .next (opResult (.irShift 0x80#8) (ready .jtag4 true [])) ∧
    exec (.irShift 0x80#8) (ready .sbw true []) = .next (opResult (.irShift 0x80#8) (ready .sbw true [])) :=
  ⟨rfl, exec_launch (launch_ready ..) _, exec_launch (launch_ready ..) _⟩

/-- `ShiftWalksTheStandardPath`, `AccumulatorHoldsTheResult`, `ShiftPreservesTheClockLevel` and `ShiftSizes`. -/
theorem witness_Shifts : (∀ i ∈ [Instr.irShift 0x13#8, .drShift8 0x5A#8, .drShift16 0xA55A#16], isShift i = true) ∧
    Launch (ready .sbw true []) ∧ Launch (ready .jtag4 false []) ∧ (ready .sbw true []).cfg.link = .sbw :=
  ⟨by decide, launch_ready .., launch_ready .., rfl⟩

/-- The echoing target of the last clause: the mirror row of spec/95_test_vectors.md 2.2. -/
theorem witness_ShiftBitOrder :
    isShift (.drShift16 0x1234#16) = true ∧ Launch (ready .sbw true (bits "000001011000100100000")) ∧
    ∀ k < dataWidth (.drShift16 0x1234#16),
      answerAt (cyclesIn (.drShift16 0x1234#16) + k) (ready .sbw true (bits "000001011000100100000")) =
        (operandOf (.drShift16 0x1234#16)).getLsbD k :=
  ⟨rfl, launch_ready .., by decide⟩

/-- Two states of different variants, latches and navigation answers, with the same data answers. -/
theorem witness_ResponseDependsOnDataAnswersOnly :
    exec (.drShift8 0x00#8) (ready .sbw true (bits "1111010101011")) =
      .next (opResult (.drShift8 0x00#8) (ready .sbw true (bits "1111010101011"))) ∧
    exec (.drShift8 0x00#8) (ready .jtag4 false (bits "0001010101000")) =
      .next (opResult (.drShift8 0x00#8) (ready .jtag4 false (bits "0001010101000"))) ∧
    ∀ k < dataWidth (.drShift8 0x00#8),
      answerAt (cyclesIn (.drShift8 0x00#8) + k) (ready .sbw true (bits "1111010101011")) =
        answerAt (cyclesIn (.drShift8 0x00#8) + k) (ready .jtag4 false (bits "0001010101000")) :=
  ⟨exec_launch (launch_ready ..) _, exec_launch (launch_ready ..) _, by decide⟩

theorem witness_TclkFrame :
    isShift .tclkClear = false ∧ isShift .tclkSet = false ∧
    exec .tclkClear (ready .sbw true []) = .next (opResult .tclkClear (ready .sbw true [])) ∧
    exec .tclkSet (ready .jtag4 true []) = .next (opResult .tclkSet (ready .jtag4 true [])) :=
  ⟨rfl, rfl, exec_launch (launch_ready ..) _, exec_launch (launch_ready ..) _⟩

theorem witness_TclkOperationLevels : (ready .sbw true []).cfg.link = .sbw ∧ Launch (ready .sbw true []) :=
  ⟨rfl, launch_ready ..⟩

theorem witness_TclkRepeatStillEmits :
    (Launch (ready .sbw true []) ∧ logicalTclk (ready .sbw true []) = true) ∧
    (Launch (ready .jtag4 false []) ∧ logicalTclk (ready .jtag4 false []) = false) :=
  ⟨⟨launch_ready .., rfl⟩, ⟨launch_ready .., rfl⟩⟩

theorem witness_TclkSizes : isShift .tclkSet = false ∧ Launch (ready .sbw true []) ∧ Launch (ready .jtag4 true []) :=
  ⟨rfl, launch_ready .., launch_ready ..⟩

/-- The program P1 of spec/95_test_vectors.md. -/
theorem witness_TclkLevelPersistsThroughShifts :
    Launch (ready .sbw false []) ∧ ∀ i ∈ [Instr.irShift 0x13#8, .drShift16 0xA55A#16], isShift i = true :=
  ⟨launch_ready .., by decide⟩

theorem witness_OnlyTclkOperationsAndResetWriteTheLatch :
    (nextOf (step (offered [.command 0x040000#24] (ready .sbw false [])))).map (fun t => t.tclkLatch) = some true ∧
    (offered [.command 0x040000#24] (ready .sbw false [])).tclkLatch = false := by decide

theorem witness_OperationsRunFromLaunchStatesOnly : Launch (ready .sbw false []) ∧ ¬ Launch State.reset :=
  ⟨launch_ready .., not_launch_reset⟩

theorem fresh_invariants (l : Link) : BetweenOps (fresh l) ∧ TraceExplainsPins (fresh l) := by
  refine ⟨⟨rfl, rfl, fun h => ?_, fun _ => ⟨rfl, rfl, rfl⟩⟩, fun h => ?_, fun _ => rfl⟩ <;> cases h

theorem ready_invariants (l : Link) (latch : Bit) (ins : List Input) :
    BetweenOps (offered ins (ready l latch [])) ∧ TraceExplainsPins (offered ins (ready l latch [])) := by
  refine ⟨⟨rfl, rfl, fun _ => ⟨?_, ?_⟩, fun h => by cases h⟩, fun _ => ?_, fun h => by cases h⟩
  · cases l
    · exact ⟨_, _, rfl⟩
    · rfl
  · cases l <;> rfl
  · cases l <;> rfl

/-- `EveryStepKeepsBetweenOps` and `EveryStepKeepsTraceExplainsPins`: a step of an operation, and one of construction. -/
theorem witness_EveryStepKeeps :
    (BetweenOps (offered [.command 0x000013#24] (ready .sbw true [])) ∧
      TraceExplainsPins (offered [.command 0x000013#24] (ready .sbw true [])) ∧
      step (offered [.command 0x000013#24] (ready .sbw true [])) = .next (opResult (.irShift 0x13#8) (ready .sbw true []))) ∧
    (BetweenOps (offered [.construct] (fresh .jtag4)) ∧ TraceExplainsPins (offered [.construct] (fresh .jtag4)) ∧
      step (offered [.construct] (fresh .jtag4)) = .next (driveIdlePattern (fresh .jtag4))) := by
  refine ⟨⟨(ready_invariants ..).1, (ready_invariants ..).2, ?_⟩, ?_, ?_, rfl⟩
  · exact exec_launch (launch_ready .sbw true []) (.irShift 0x13#8)
  · have h := (fresh_invariants .jtag4).1
    exact ⟨h.1, h.2, h.3, h.4⟩
  · exact (fresh_invariants .jtag4).2

theorem witness_ResetValues : (cfgOf .sbw true).link = .sbw ∧ (cfgOf .jtag4 false).link = .jtag4 := by decide

/-- A reset alone, and one that cuts a command at its first event, in its middle and at its last. -/
theorem witness_ResetTakesEveryFieldToItsResetValue :
    (offered [.reset] (ready .sbw true [])).inputs = .reset :: [] ∧
    step (offered [.reset] (ready .sbw true [])) = .next (hardReset (ready .sbw true [])) ∧
    ∀ k ∈ [0, 1, 84, 169], (offered [.resetDuring (encode (.irShift 0x13#8)) k] (ready .sbw true [])).inputs =
      .resetDuring (encode (.irShift 0x13#8)) k :: [] ∧
      Launch (offered [.resetDuring (encode (.irShift 0x13#8)) k] (ready .sbw true [])) :=
  ⟨rfl, rfl, fun _ _ => ⟨rfl, launch_offered ..⟩⟩

theorem witness_ConstructionDrivesTheIdlePattern :
    (offered [.construct] (fresh .sbw)).constructed = false ∧ (offered [.construct] (fresh .sbw)).cfg.wf = true ∧
    (fresh .sbw).cfg.link = .sbw ∧ (fresh .jtag4).cfg.link = .jtag4 := by decide

theorem witness_ResetConstructAcquireReachLaunch :
    (offered [.reset, .construct, .acquire] (ready .sbw true [])).cfg.wf = true ∧
    (offered [.acquire] (fresh .sbw)).busy = false ∧ (offered [.acquire] (fresh .sbw)).constructed = false ∧
    (offered [.construct] State.reset).constructed = true := by decide

theorem witness_AcquisitionChangesOnlyTheTarget :
    (offered [.acquire] State.reset).inputs = .acquire :: [] ∧ (offered [.acquire] State.reset).busy = false ∧
    (offered [.acquire] State.reset).constructed = true := by decide

theorem witness_TclkOperationEstablishesTheLevel :
    (ready .jtag4 true []).cfg.wf = true ∧
    (offered [.reset, .construct, .acquire, .command 0x040000#24] (ready .jtag4 true [])).inputs =
      .reset :: .construct :: .acquire :: .command (if true then 0x040000#24 else 0x030000#24) :: [] := by decide

theorem witness_CommandPortServesOneCommandAtATime :
    { offered [.command 0x040000#24] State.reset with busy := true }.busy = true ∧
    step (offered [.command 0x040000#24] (ready .sbw true [])) = .next (opResult .tclkSet (ready .sbw true [])) :=
  ⟨rfl, exec_launch (launch_ready .sbw true []) .tclkSet⟩

theorem witness_WithoutInputTheBlockWaits : State.reset.inputs = [] := rfl

/-- Two lists of operations, the first of them not empty, run one after the other. -/
theorem witness_TraceIsTheConcatenationInIssueOrder :
    (nextOf (execAll ([.tclkSet] ++ [.tclkClear]) (ready .sbw false [false, false]))).map (fun t => t.trace.length) =
      some 25 := by decide

theorem witness_ConfigurationNeverChanges :
    step (offered [.construct] (fresh .jtag4)) = .next (driveIdlePattern (fresh .jtag4)) := rfl

theorem witness_EveryRunOfCommandsEnds :
    Launch (offered [.command 0x010000#24, .command 0x050000#24, .reset] (ready .sbw true [])) ∧
    (offered [.command 0x010000#24, .command 0x050000#24, .reset] (ready .sbw true [])).inputs =
      [0x010000#24, 0x050000#24].map .command ++ [.reset] := ⟨launch_offered .., rfl⟩

/-- The same operation and the same answers in the two variants. -/
theorem witness_VariantsAgreeAtTheLogicalLevel :
    (∀ j < cyclesIn (.irShift 0x13#8) + dataWidth (.irShift 0x13#8) + 2,
      answerAt j (ready .jtag4 false (bits "00001000100100")) = answerAt j (ready .sbw true (bits "00001000100100"))) ∧
    exec (.irShift 0x13#8) (ready .jtag4 false (bits "00001000100100")) =
      .next (opResult (.irShift 0x13#8) (ready .jtag4 false (bits "00001000100100"))) ∧
    exec (.irShift 0x13#8) (ready .sbw true (bits "00001000100100")) =
      .next (opResult (.irShift 0x13#8) (ready .sbw true (bits "00001000100100"))) ∧
    exec (if true then .tclkSet else .tclkClear) (ready .sbw true []) = .next (opResult .tclkSet (ready .sbw true [])) :=
  ⟨by decide, exec_launch (launch_ready ..) _, exec_launch (launch_ready ..) _, exec_launch (launch_ready ..) _⟩

end Sys2Proof.Tests
end

section
/-! PROOFS. The state between steps (spec/10_state.md): what `Emit`, `Sample` and a reset leave, and what every step keeps. -/

namespace Sys2Proof.Machine

/-! The fields of an operation's result, and the idle pattern as it is driven. -/

@[simp] theorem opResult_cfg (i : Instr) (s : State) : (opResult i s).cfg = s.cfg := useAnswers_cfg s _
@[simp] theorem opResult_constructed (i : Instr) (s : State) : (opResult i s).constructed = s.constructed :=
  useAnswers_constructed s _
@[simp] theorem opResult_tclkLatch (i : Instr) (s : State) : (opResult i s).tclkLatch = opLatch i s := rfl
@[simp] theorem opResult_pins (i : Instr) (s : State) : (opResult i s).pins = opPins i s := rfl
@[simp] theorem opResult_trace (i : Instr) (s : State) : (opResult i s).trace = s.trace ++ opEvents i s := rfl

/-- R33, R34 of the pattern R37 writes down: with the latch at its reset value it is idle, and its level is the latch's. -/
theorem pinsIdle_of_idlePins {s : State} (hp : s.pins = idlePins s.cfg) (hl : s.tclkLatch = s.cfg.tclkLatchReset) :
    PinsIdle s ∧ logicalTclk s = s.cfg.tclkLatchReset := by
  unfold PinsIdle logicalTclk
  cases hk : s.cfg.link
  case jtag4 =>
    have hq : s.pins = .jtag4 { tck := true, tms := false, tdi := false, tclk := s.cfg.tclkLatchReset } := by
      rw [hp, idlePins, hk]
    exact ⟨⟨_, _, hq⟩, by rw [hq]⟩
  case sbw =>
    have hq : s.pins = .sbw { sbwtck := true, tdioOut := s.tclkLatch, tdioDir := .output } := by
      rw [hp, idlePins, hk, hl]
    exact ⟨hq, by rw [hq]; exact hl⟩

/-! A property that each thing a step can do keeps, every step keeps. -/

/-- `P` is kept by each way `step` can answer a next state. A reset that cuts no command is the one after no sample. -/
structure StepClosed (P : State → Prop) : Prop where
  takeInput : ∀ s rest, P s → P (taken s rest)
  operation : ∀ s i, Launch s → P s → P (opResult i s)
  answered  : ∀ s r, P s → P { s with responses := s.responses ++ [r] }
  reset     : ∀ s m, P s → P (hardReset (useAnswers m s))
  construct : ∀ s, s.constructed = false → P s → P (driveIdlePattern s)
  acquire   : ∀ s, s.constructed = true → P s → P (acquireTarget s)

theorem StepClosed.preserved {P : State → Prop} (hP : StepClosed P) {s t : State} (hs : P s) (h : step s = .next t) : P t := by
  rcases step_next h with ⟨_, rfl⟩ | ⟨_, rest, _, hcase⟩
  · exact hs
  · have hr : P (taken s rest) := hP.takeInput s rest hs
    rcases hcase with ⟨_, i, _, _, hl, rfl⟩ | ⟨_, _, _, _, rfl⟩ | ⟨_, rfl⟩ | ⟨_, _, m, _, rfl⟩ | ⟨_, hc, _, rfl⟩ |
      ⟨_, _, hc, rfl⟩
    · exact hP.operation _ i (launch_taken.2 hl) hr
    · exact hP.answered _ _ hr
    · exact hP.reset _ 0 hr
    · exact hP.reset _ m hr
    · exact hP.construct _ hc hr
    · exact hP.acquire _ hc hr

/-! The idle invariant. -/

theorem Launch.betweenOps {s : State} (h : Launch s) : BetweenOps s :=
  ⟨h.idle, h.tap, fun _ => ⟨h.pins, h.tclk⟩, fun hc => by simp [h.constructed] at hc⟩

theorem betweenOps_hardReset (s : State) : BetweenOps (hardReset s) :=
  ⟨rfl, rfl, nofun, fun _ => ⟨rfl, rfl, rfl⟩⟩

/-- R182: construction is where the lines come to the idle pattern; the latch still has its reset value there. -/
theorem betweenOps_driveIdlePattern {s : State} (hc : s.constructed = false) (h : BetweenOps s) :
    BetweenOps (driveIdlePattern s) := by
  obtain ⟨hlatch, _, _⟩ := h.down hc
  obtain ⟨hpins, htclk⟩ := pinsIdle_of_idlePins (s := driveIdlePattern s) rfl hlatch
  exact ⟨h.idle, h.tap, fun _ => ⟨hpins, htclk.symm⟩, nofun⟩

theorem betweenOps_acquireTarget {s : State} (hc : s.constructed = true) (h : BetweenOps s) :
    BetweenOps (acquireTarget s) :=
  ⟨h.idle, h.tap, fun _ => ⟨(h.up hc).1, rfl⟩, fun hn => by simp [hc] at hn⟩

theorem stepClosed_betweenOps : StepClosed BetweenOps where
  takeInput _ _ h := ⟨h.idle, h.tap, h.up, h.down⟩
  operation _ i hl _ := (opResult_launch hl i).betweenOps
  answered _ _ h := ⟨h.idle, h.tap, h.up, h.down⟩
  reset _ _ _ := betweenOps_hardReset _
  construct _ hc h := betweenOps_driveIdlePattern hc h
  acquire _ hc h := betweenOps_acquireTarget hc h

theorem betweenOps_resetOf (c : Config) : BetweenOps (State.resetOf c) := by
  obtain ⟨hpins, htclk⟩ := pinsIdle_of_idlePins (s := State.resetOf c) rfl rfl
  exact ⟨rfl, rfl, fun _ => ⟨hpins, htclk.symm⟩, nofun⟩

/-- Settles O35: an operation ends in a launch state, and a reset, construction and acquisition each leave the invariant. -/
theorem everyStepKeepsBetweenOps : Obligations.EveryStepKeepsBetweenOps :=
  fun _ _ => stepClosed_betweenOps.preserved

/-! The trace and the pin registers. -/

/-- R28, R30: an operation from a launch state appends legal events, and they lead on to the registers it leaves. -/
theorem traceExplainsPins_opResult {s : State} (hl : Launch s) (i : Instr) (h : TraceExplainsPins s) :
    TraceExplainsPins (opResult i s) := by
  obtain ⟨hup, _⟩ := h
  refine ⟨fun _ => ?_, fun hc => by simp [hl.constructed] at hc⟩
  calc replay (idlePins (opResult i s).cfg) (opResult i s).trace
      = (replay (idlePins s.cfg) s.trace).bind fun q => replay q (opEvents i s) := by
        rw [opResult_cfg, opResult_trace, replay_append]
    _ = replay s.pins (opEvents i s) := by rw [hup hl.constructed, Option.bind_some]
    _ = some (opResult i s).pins := by rw [opResult_pins, replay_opEvents hl i]

/-- R182: construction finds the trace empty, and drives the pattern the replay starts from. -/
theorem traceExplainsPins_driveIdlePattern {s : State} (hc : s.constructed = false) (h : TraceExplainsPins s) :
    TraceExplainsPins (driveIdlePattern s) := by
  have ht : s.trace = [] := h.2 hc
  exact ⟨fun _ => by rw [driveIdlePattern_trace, ht]; rfl, nofun⟩

theorem stepClosed_traceExplainsPins : StepClosed TraceExplainsPins where
  takeInput _ _ h := h
  operation _ i hl h := traceExplainsPins_opResult hl i h
  answered _ _ h := h
  reset _ _ _ := ⟨nofun, fun _ => rfl⟩
  construct _ hc h := traceExplainsPins_driveIdlePattern hc h
  acquire _ _ h := h

theorem traceExplainsPins_resetOf (c : Config) : TraceExplainsPins (State.resetOf c) := ⟨fun _ => rfl, nofun⟩

/-- Settles O36: an operation appends what its registers replay, and construction starts the replay afresh. -/
theorem everyStepKeepsTraceExplainsPins : Obligations.EveryStepKeepsTraceExplainsPins :=
  fun _ _ => stepClosed_traceExplainsPins.preserved

/-! The latched level and the configuration. -/

/-- R79: the word of a decoded operation is the one it encodes to, row by row of R72. -/
theorem encode_of_decode {w : CmdWord} {i : Instr} (h : decode w = some i) : encode i = w := by
  obtain ⟨hrow0, hrow1, hrow2, hrow3, hrow4⟩ := rows_toNat w
  simp only [decode_rows, hrow0, hrow1, hrow2, hrow3, hrow4] at h
  apply BitVec.eq_of_toNat_eq
  rw [encode_toNat]
  split_ifs at h <;> cases h <;> simp only [BitVec.extractLsb'_toNat, Nat.shiftRight_zero] <;> omega

/-- R24, R150: an operation that changes the latch is one of the two TCLK operations. -/
theorem tclk_of_opLatch_ne {i : Instr} {s : State} (h : opLatch i s ≠ s.tclkLatch) : i = .tclkClear ∨ i = .tclkSet := by
  cases i with
  | irShift _ | drShift8 _ | drShift16 _ => exact absurd rfl h
  | tclkClear => exact .inl rfl
  | tclkSet => exact .inr rfl

/-- Settles O33: of the ways a step answers, only an operation and a reset touch the latch, and no shift does. -/
theorem onlyTclkOperationsAndResetWriteTheLatch : Obligations.OnlyTclkOperationsAndResetWriteTheLatch := by
  intro s t h hne
  rcases step_next h with ⟨_, rfl⟩ | ⟨inp, rest, hin, hcase⟩
  · exact absurd rfl hne
  · refine ⟨rest, ?_⟩
    rcases hcase with ⟨w, i, rfl, hd, _, rfl⟩ | ⟨_, _, _, _, rfl⟩ | ⟨rfl, _⟩ | ⟨w, k, _, rfl, _⟩ | ⟨_, _, _, rfl⟩ |
      ⟨_, _, _, rfl⟩
    · obtain rfl : encode i = w := encode_of_decode hd
      rw [opResult_tclkLatch] at hne
      rcases tclk_of_opLatch_ne (s := taken s rest) hne with rfl | rfl
      · exact .inl hin
      · exact .inr (.inl hin)
    · exact absurd rfl hne
    · exact .inr (.inr (.inl hin))
    · exact .inr (.inr (.inr ⟨w, k, hin⟩))
    · exact absurd rfl hne
    · exact absurd rfl hne

theorem stepClosed_cfg (c : Config) : StepClosed fun s => s.cfg = c where
  takeInput _ _ h := h
  operation s i _ h := (opResult_cfg i s).trans h
  answered _ _ h := h
  reset s m h := (useAnswers_cfg s m).trans h
  construct _ _ h := h
  acquire _ _ h := h

/-- Settles O47: nothing a step can do writes `cfg`. -/
theorem configurationNeverChanges : Obligations.ConfigurationNeverChanges :=
  fun s _ => (stepClosed_cfg s.cfg).preserved rfl

/-! `Emit`, `Sample` and the reset state. -/

/-- Settles O9, register by register. -/
theorem emitAppendsAndWritesOneRegister : Obligations.EmitAppendsAndWritesOneRegister := by
  refine ⟨fun _ _ => rfl, fun s p b hp => ?_, fun s p b d hp => ?_⟩
  · simp only [emit_pins, hp, applyEvent, and_self]
  · simp only [emit_pins, hp, applyEvent, and_self]

/-- Settles O10, by whether the environment has an answer left. -/
theorem sampleReturnsTheTargetsAnswer : Obligations.SampleReturnsTheTargetsAnswer := by
  refine ⟨fun l s b bs h => ?_, fun l s h => ?_⟩
  · have ha : answerAt 0 s = b := by simp [answerAt, h]
    simp [sample, ha, useAnswer, h]
  · have ha : answerAt 0 s = Config.freeSample s.draws := by simp [answerAt, h]
    simp [sample, ha, useAnswer, h]

/-- Settles O37: the reset state is the constructed one, its lines at the idle pattern and its trace empty. -/
theorem resetMeetsTheInvariants : Obligations.ResetMeetsTheInvariants :=
  ⟨betweenOps_resetOf _, traceExplainsPins_resetOf _, fun c => ⟨betweenOps_resetOf c, traceExplainsPins_resetOf c⟩⟩

theorem idlePins_of_sbw {c : Config} (h : c.link = .sbw) :
    idlePins c = .sbw { sbwtck := true, tdioOut := c.tclkLatchReset, tdioDir := .output } := by rw [idlePins, h]

theorem idlePins_of_jtag4 {c : Config} (h : c.link = .jtag4) :
    idlePins c = .jtag4 { tck := true, tms := false, tdi := false, tclk := c.tclkLatchReset } := by rw [idlePins, h]

/-- Settles O38: the fields as `State.resetOf` sets them, the lines by the variant. -/
theorem resetValues : Obligations.ResetValues :=
  fun _ => ⟨rfl, rfl, rfl, rfl, fun h => ⟨rfl, idlePins_of_sbw h⟩, idlePins_of_jtag4⟩

end Sys2Proof.Machine
end

section
/-! PROOFS. What the block keeps in order (spec/20_memory.md): the bits of a shift (R55), and the trace of a run (R63). -/

namespace Sys2Proof.Machine

/-! The order of a shift's bits. -/

/-- R55 "In": data cycle `k` shows the observer operand bit `k` as TDI, and as TDO the answer to that cycle. -/
theorem logicalCycles_opEvents_data {i : Instr} {s : State} (hs : isShift i = true) (h : Launch s) {k : Nat}
    (hk : k < dataWidth i) :
    ((logicalCycles s.pins (opEvents i s))[cyclesIn i + k]?).map (fun c => (c.tdi, c.tdo)) =
      some ((operandOf i).getLsbD k, answerAt (cyclesIn i + k) s) := by
  obtain ⟨kind, n, data, hevents, hwidth, hin, hopnd, hn, _⟩ := shift_shape i hs
  obtain ⟨hold, hcycles⟩ := logicalCycles_shift h kind n data
  have hkn : k < n := hwidth ▸ hk
  have hbit : (operandOf i).getLsbD k = data.getLsbD k := by
    rw [hopnd, BitVec.getLsbD_setWidth, decide_eq_true (by omega : k < 16), Bool.true_and]
  rw [hevents, hcycles, hin, logicalOf_data _ hold _ _ _ _ _ (shiftCycles_data kind n data k hkn), hbit, Option.map_some]

/-- R58: no operation has more data cycles than the accumulator has bits. -/
theorem dataWidth_le (i : Instr) : dataWidth i ≤ 16 := by
  cases i with
  | irShift _ | drShift8 _ | drShift16 _ | tclkClear | tclkSet => simp only [dataWidth]; omega

/-- R55 "Out": the answer to data cycle `k` of `N` is result bit `N - 1 - k`. -/
theorem rspData_opResponse_getLsbD {i : Instr} (s : State) {k : Nat} (hk : k < dataWidth i) :
    (rspData (opResponse i s)).getLsbD (dataWidth i - 1 - k) = answerAt (cyclesIn i + k) s := by
  have hw : dataWidth i ≤ 16 := dataWidth_le i
  rw [opResponse, rspData_okResponse, ← accAfter_ofNat _ hw, accAfter_getLsbD _ _ _ _ (by omega), if_pos (by omega)]
  congr 2
  omega

/-- R130: one turn of the loop shifts the sampled bit into the accumulator. -/
theorem dataCycle_acc (n : Nat) (u : State) : (dataCycle n u).acc = accumulate u.acc (answerAt 0 u) := by
  obtain ⟨_, hacc, _, hbit, _⟩ := tapCycle_keeps (lastCycle n u.cycle) (some (operandBit u.opnd u.cycle)) u
  simp only [dataCycle, hacc, hbit]

/-- Settles O21: the two directions of R55 on the operation's result; with an echoing target one follows the other. -/
theorem shiftBitOrder : Obligations.ShiftBitOrder := by
  intro i s hs h
  have hout : ∀ k < dataWidth i,
      (rspData (opResponse i s)).getLsbD (dataWidth i - 1 - k) = answerAt (cyclesIn i + k) s :=
    fun _ hk => rspData_opResponse_getLsbD s hk
  refine ⟨opResult i s, opResponse i s, exec_launch h i, rfl, fun k hk => ⟨?_, hout k hk⟩,
    fun hecho k hk => (hout k hk).trans (hecho k hk), dataCycle_acc⟩
  rw [newEvents_opResult]
  exact logicalCycles_opEvents_data hs h hk

/-! The trace of a run of operations. -/

@[simp] theorem opResult_responses (i : Instr) (s : State) :
    (opResult i s).responses = s.responses ++ [opResponse i s] := rfl

@[simp] theorem execAll_nil_next_iff (s t : State) : execAll [] s = .next t ↔ s = t := by
  rw [execAll, Host.Outcome.next.injEq]

/-- R63, R184: a run goes on from what its first operation leaves, and starts in a launch state only. -/
theorem execAll_cons_next_iff (i : Instr) (is : List Instr) (s t : State) :
    execAll (i :: is) s = .next t ↔ Launch s ∧ execAll is (opResult i s) = .next t := by
  by_cases h : Launch s
  · simp [execAll, exec_launch h, h]
  · obtain ⟨r, _, hr⟩ := exec_not_launch h i
    simp [execAll, hr, h]

/-- R63: a run of one list after another is the two runs in turn. -/
theorem execAll_append_next_iff (is js : List Instr) (s t : State) :
    execAll (is ++ js) s = .next t ↔ ∃ u, execAll is s = .next u ∧ execAll js u = .next t := by
  induction is generalizing s with
  | nil => simp
  | cons i is ih => simp only [List.cons_append, execAll_cons_next_iff, ih, and_assoc, exists_and_left]

/-- R30, R70: a run only appends to the trace, and answers each operation once. -/
theorem execAll_next {is : List Instr} {s t : State} (h : execAll is s = .next t) :
    s.trace <+: t.trace ∧ t.responses.length = s.responses.length + is.length := by
  induction is generalizing s with
  | nil =>
    obtain rfl := (execAll_nil_next_iff s t).1 h
    exact ⟨List.prefix_rfl, rfl⟩
  | cons i is ih =>
    obtain ⟨htrace, hlen⟩ := ih ((execAll_cons_next_iff i is s t).1 h).2
    refine ⟨(List.prefix_append s.trace (opEvents i s)).trans htrace, ?_⟩
    rw [hlen, opResult_responses, List.length_append, List.length_singleton, List.length_cons]
    omega

theorem trace_append_newEvents {s t : State} (h : s.trace <+: t.trace) : s.trace ++ newEvents s t = t.trace :=
  List.prefix_iff_eq_append.1 h

/-- Settles O46: one operation by its result; a list cut in two by the run between, each part appending its own events. -/
theorem traceIsTheConcatenationInIssueOrder : Obligations.TraceIsTheConcatenationInIssueOrder := by
  refine ⟨fun i s t h => ?_, fun is js s t h => ?_⟩
  · obtain ⟨_, rfl⟩ := (exec_next_iff i s t).1 h
    exact opResult_trace i s
  · obtain ⟨u, his, hjs⟩ := (execAll_append_next_iff is js s t).1 h
    obtain ⟨htrace₁, hlen₁⟩ := execAll_next his
    obtain ⟨htrace₂, hlen₂⟩ := execAll_next hjs
    refine ⟨u, his, hjs, ?_, by omega⟩
    rw [trace_append_newEvents htrace₁, trace_append_newEvents htrace₂]

end Sys2Proof.Machine
end

section
/-! PROOFS. The command word and the command port (spec/30_encoding.md): the opcode map, the encoder and the decoder, illegal
words, the assembler's lines, and what the port does with a command. -/

namespace Sys2Proof

/-! The opcode map. -/

/-- R72: rows that ask the same of the bits both look at are one row. -/
theorem row_eq_of_common_bits :
    ∀ r ∈ opRows, ∀ q ∈ opRows, r.pattern &&& q.mask = q.pattern &&& r.mask → r = q := by decide

/-- R72: a word selects at most one row. -/
theorem row_unique {w : CmdWord} {r q : OpRow} (hr : r ∈ opRows) (hq : q ∈ opRows) (hwr : w &&& r.mask = r.pattern)
    (hwq : w &&& q.mask = q.pattern) : r = q := by
  refine row_eq_of_common_bits r hr q hq ?_
  calc r.pattern &&& q.mask
      = w &&& r.mask &&& q.mask := by rw [hwr]
    _ = w &&& q.mask &&& r.mask := by rw [BitVec.and_assoc, BitVec.and_comm r.mask, BitVec.and_assoc]
    _ = q.pattern &&& r.mask := by rw [hwq]

theorem opRows_disjoint :
    opRows.Pairwise (fun r q => ∀ w : CmdWord, ¬ (w &&& r.mask = r.pattern ∧ w &&& q.mask = q.pattern)) :=
  List.Nodup.pairwise_of_forall_ne (by decide) fun _ hr _ hq hne _ ⟨hwr, hwq⟩ => hne (row_unique hr hq hwr hwq)

/-- R72, R73: a word decodes to what the row it selects makes of it, whatever the order of the rows. -/
theorem decode_eq_some_iff (w : CmdWord) (i : Instr) :
    decode w = some i ↔ ∃ r ∈ opRows, w &&& r.mask = r.pattern ∧ operandsOf r.mnemonic w = i := by
  simp only [decode, Option.map_eq_some_iff]
  constructor
  · rintro ⟨r, hfind, hop⟩
    exact ⟨r, List.mem_of_find?_eq_some hfind, by simpa [selectsRow] using List.find?_some hfind, hop⟩
  · rintro ⟨r, hr, hwr, hop⟩
    have hsome : (opRows.find? (selectsRow w)).isSome := List.find?_isSome.2 ⟨r, hr, by simpa [selectsRow] using hwr⟩
    obtain ⟨q, hfind⟩ := Option.isSome_iff_exists.1 hsome
    have hwq : w &&& q.mask = q.pattern := by simpa [selectsRow] using List.find?_some hfind
    obtain rfl : r = q := row_unique hr (List.mem_of_find?_eq_some hfind) hwr hwq
    exact ⟨r, hfind, hop⟩

/-- Settles O3: a row's words are those that select it, and the operand is the row's bits of the word. -/
theorem opcodeMapRowByRow : Obligations.OpcodeMapRowByRow := by
  refine ⟨fun w d => ?irShift, fun w d => ?drShift8, fun w d => ?drShift16, fun w => ?tclkClear, fun w => ?tclkSet,
    opRows_disjoint⟩
  case irShift | drShift8 | drShift16 => simp [decode_eq_some_iff, opRows, operandsOf, eq_comm (a := d)]
  case tclkClear | tclkSet => simp [decode_eq_some_iff, opRows, operandsOf]

/-! The encoder. -/

/-- R79: the word of every operation selects the row of the operation's mnemonic. -/
theorem encode_selects (i : Instr) : ∃ r ∈ opRows, r.mnemonic = i.mnemonic ∧ selectsRow (encode i) r = true := by
  cases i with
  | irShift d => exact (Laws.Encoding.irShift d).1
  | drShift8 d => exact (Laws.Encoding.drShift8 d).1
  | drShift16 d => exact (Laws.Encoding.drShift16 d).1
  | tclkClear => exact Laws.Encoding.tclkClear.1
  | tclkSet => exact Laws.Encoding.tclkSet.1

/-- R73, R79: the operand bits of an encoded operation are its operand. -/
theorem operandsOf_encode (i : Instr) : operandsOf i.mnemonic (encode i) = i := by
  cases i with
  | irShift d | drShift8 d | drShift16 d =>
    simp only [Instr.mnemonic, operandsOf]
    congr 1
    apply BitVec.eq_of_toNat_eq
    have := d.isLt
    simp only [BitVec.extractLsb'_toNat, encode_toNat, Nat.shiftRight_zero]
    omega
  | tclkClear => rfl
  | tclkSet => rfl

theorem decode_encode (i : Instr) : decode (encode i) = some i := by
  obtain ⟨r, hr, hm, hs⟩ := encode_selects i
  exact (decode_eq_some_iff _ _).2 ⟨r, hr, by simpa [selectsRow] using hs, hm ▸ operandsOf_encode i⟩

/-- Settles O1: an encoded operation selects its own row, and the row's operand bits give the operand back. -/
theorem decodeOfEncodeIsTheInstruction : Obligations.DecodeOfEncodeIsTheInstruction :=
  ⟨decode_encode, fun _ => encode_toNat _, fun _ => encode_toNat _, fun _ => encode_toNat _, rfl, rfl⟩

/-- Settles O2, row by row of the opcode map. -/
theorem encodeOfDecodeIsTheWord : Obligations.EncodeOfDecodeIsTheWord :=
  fun _ _ => Machine.encode_of_decode

/-! Illegal words. -/

theorem opcOf_toNat (w : CmdWord) : (opcOf w).toNat = w.toNat / 2 ^ 16 := by
  have := w.isLt
  simp only [opcOf, BitVec.extractLsb'_toNat, Nat.shiftRight_eq_div_pow]
  omega

theorem opndOf_toNat (w : CmdWord) : (opndOf w).toNat = w.toNat % 2 ^ 16 := by
  simp only [opndOf, BitVec.extractLsb'_toNat, Nat.shiftRight_zero]

/-- `opnd[15:8]` as a number. -/
theorem opndOf_high_toNat (w : CmdWord) : ((opndOf w).extractLsb' 8 8).toNat = w.toNat % 2 ^ 16 / 2 ^ 8 := by
  simp only [BitVec.extractLsb'_toNat, opndOf_toNat, Nat.shiftRight_eq_div_pow]
  omega

/-- R75: a word is illegal when it selects no row. -/
theorem decode_eq_none_iff (w : CmdWord) : decode w = none ↔ ∀ r ∈ opRows, w &&& r.mask ≠ r.pattern := by
  simp only [decode, Option.map_eq_none_iff, List.find?_eq_none, selectsRow, beq_iff_eq]

/-- R75: the three ways a word is illegal; each row's test and each field of the word is read as a number. -/
theorem decode_eq_none_iff_fields (w : CmdWord) :
    decode w = none ↔
      5 ≤ (opcOf w).toNat ∨
      ((opcOf w = 0x00#8 ∨ opcOf w = 0x01#8) ∧ (opndOf w).extractLsb' 8 8 ≠ 0x00#8) ∨
      ((opcOf w = 0x03#8 ∨ opcOf w = 0x04#8) ∧ opndOf w ≠ 0x0000#16) := by
  obtain ⟨hrow0, hrow1, hrow2, hrow3, hrow4⟩ := rows_toNat w
  have hrows : decode w = none ↔ ¬ w.toNat < 2 ^ 8 ∧ ¬ w.toNat / 2 ^ 8 = 2 ^ 8 ∧ ¬ w.toNat / 2 ^ 16 = 2 ∧
      ¬ w.toNat = 3 * 2 ^ 16 ∧ ¬ w.toNat = 4 * 2 ^ 16 := by
    simp only [decode_eq_none_iff, opRows, List.forall_mem_cons, List.not_mem_nil, false_imp_iff, implies_true, and_true,
      ne_eq, hrow0, hrow1, hrow2, hrow3, hrow4]
  simp only [hrows, ← BitVec.toNat_inj, ne_eq, opcOf_toNat, opndOf_toNat, opndOf_high_toNat, BitVec.toNat_ofNat]
  omega

/-! The assembler. -/

/-- R77: without a result, a line is legal when its operand is there where one is wanted, and fits. -/
@[simp] theorem wf_without_result (m : Mnemonic) (n : Option Nat) :
    (AsmLine.mk m n none).wf = numberFits m.operandWidth n := by
  simp [AsmLine.wf]

/-- R77: a line whose operand is missing, unwanted or too wide is an assembly error. -/
theorem assemble_eq_none {m : Mnemonic} {n : Option Nat} (h : numberFits m.operandWidth n = false) :
    assemble ⟨m, n, none⟩ = none := by
  simp [assemble, h]

/-- R77: the rule's example lines, one with a result, and an operand that does not fit. -/
theorem assembleText_examples :
    assembleText "ir_shift 0x13".toList = some 0x000013#24 ∧
    assembleText "dr_shift_16 0xA55A".toList = some 0x02A55A#24 ∧
    assembleText "dr_shift_8 7".toList = some 0x010007#24 ∧
    assembleText "tclk_set".toList = some 0x040000#24 ∧
    assembleText "dr_shift_16 0xA55A -> 0x1234".toList = some 0x02A55A#24 ∧
    assembleText "dr_shift_8 256".toList = none := by decide

/-- Settles O6, mnemonic by mnemonic: a shift's operand fits its width or not, a TCLK line has an operand or not. -/
theorem assemblerLinesGiveTheirOperation : Obligations.AssemblerLinesGiveTheirOperation := by
  refine ⟨fun n => ?irShift, fun n => ?drShift8, fun n => ?drShift16, fun m hm => ?operandMissing, fun n => ?tclkClear,
    fun n => ?tclkSet, assembleText_examples⟩
  case irShift | drShift8 | drShift16 => simp [assemble, numberFits, Mnemonic.operandWidth]
  case operandMissing =>
    simp only [List.mem_cons, List.not_mem_nil, or_false] at hm
    rcases hm with rfl | rfl | rfl <;> exact assemble_eq_none rfl
  case tclkClear | tclkSet =>
    cases n with
    | none => rfl
    | some n => exact assemble_eq_none rfl

end Sys2Proof

namespace Sys2Proof.Machine

/-- Settles O7: serving a command word is `issue`, and that decodes the word before anything else. -/
theorem stepRunsTheDecodedOperation : Obligations.StepRunsTheDecodedOperation := by
  intro s w i rest hin hd
  rw [step_cons hin, serve, issue, hd, taken]

@[simp] theorem opResult_inputs (i : Instr) (s : State) : (opResult i s).inputs = s.inputs := useAnswers_inputs s _

/-- R184: on a busy port the first premise fails. -/
theorem exec_busy {s : State} (hb : s.busy = true) (i : Instr) : exec i s = .refused .portBusy := by
  have hn : ¬ Launch s := fun h => by simp [h.idle] at hb
  obtain ⟨r, hr, hexec⟩ := exec_not_launch hn i
  obtain rfl : .portBusy = r := by simpa [launchRefusal, hb] using hr
  exact hexec

/-- R70: a busy port takes no command, legal or not. -/
theorem issue_busy {s : State} (hb : s.busy = true) (w : CmdWord) : issue w s = .refused .portBusy := by
  unfold issue
  cases decode w with
  | some i => exact exec_busy hb i
  | none => simp [refuseIllegal, hb]

/-- Settles O44: a busy port by `issue_busy`; a step that completes by what `issue` can answer. -/
theorem commandPortServesOneCommandAtATime : Obligations.CommandPortServesOneCommandAtATime := by
  refine ⟨fun s w rest hin hb => ?_, fun s t w rest hin h => ?_, fun _ _ => ⟨rfl, rfl⟩⟩
  · rw [step_cons hin]
    exact issue_busy (s := taken s rest) hb w
  · rw [step_cons hin] at h
    rcases issue_next h with ⟨i, _, hl, rfl⟩ | ⟨_, hb, rfl⟩
    · exact ⟨hl.idle, (opResult_launch hl i).idle, opResult_inputs i _, _, opResult_responses i _⟩
    · exact ⟨hb, hb, rfl, _, rfl⟩

/-- R161: on a free port an illegal word is taken and answered, and nothing else changes. -/
theorem step_illegal {s : State} {w : CmdWord} {rest : List Input} (hd : decode w = none)
    (hin : s.inputs = .command w :: rest) (hb : s.busy = false) :
    step s = .next { s with inputs := rest, responses := s.responses ++ [0x10000#17] } := by
  have hw : illegalResponse = 0x10000#17 := rfl
  simp [step_cons hin, serve, issue, hd, refuseIllegal, taken, hb, hw]

/-- Settles O4: the illegal words by their fields, the step on one, and the responses of the operations. -/
theorem illegalWordIsRefusedWithoutEffect : Obligations.IllegalWordIsRefusedWithoutEffect := by
  refine ⟨decode_eq_none_iff_fields, fun _ _ _ => step_illegal, fun i s t h => ?_⟩
  obtain ⟨_, rfl⟩ := (exec_next_iff i s t).1 h
  exact ⟨opResponse i s, opResult_responses i s, rspIllegal_okResponse _⟩

end Sys2Proof.Machine
end

section
/-! PROOFS. The TAP and the TAP cycle (spec/40_tap_cycle.md): the table of R101, the events of a cycle in both line encodings,
and what an observer of the pins reads off them (R102, R115, R118). -/

namespace Sys2Proof.Machine

/-! The table of R101. -/

/-- R101, the corner case. -/
theorem tapNext_eq_runTestIdle_iff (q : TapState) (t : Bit) :
    tapNext q t = .runTestIdle ↔
      t = false ∧ (q = .testLogicReset ∨ q = .runTestIdle ∨ q = .updateDR ∨ q = .updateIR) := by
  cases t with
  | true => cases q <;> simp [tapNext]
  | false => cases q <;> simp [tapNext]

/-- Settles O8: the rows by evaluation, the corner case by the column and the state. -/
theorem tapNextIsTheTable : Obligations.TapNextIsTheTable :=
  ⟨by decide, tapNext_eq_runTestIdle_iff⟩

/-! What a TAP cycle leaves, field by field. -/

section
variable (tms : Bit) (tdi : Option Bit) (s : State)

@[simp] theorem tapCycle_bit : (tapCycle tms tdi s).1 = answerAt 0 s := by rw [tapCycle_eq]

@[simp] theorem tapCycle_tap : (tapCycle tms tdi s).2.tap = tapNext s.tap tms := by rw [tapCycle_eq]; rfl

@[simp] theorem tapCycle_tclkLatch : (tapCycle tms tdi s).2.tclkLatch = s.tclkLatch := by
  rw [tapCycle_eq]; exact useAnswer_tclkLatch s

@[simp] theorem tapCycle_trace :
    (tapCycle tms tdi s).2.trace =
      s.trace ++ cycleEvents s.cfg s.tclkLatch s.tap ⟨tms, tdi⟩ (answerAt 0 s) := by
  rw [tapCycle_eq]; exact congrArg (· ++ _) (useAnswer_trace s)

@[simp] theorem tapCycle_newEvents :
    newEvents s (tapCycle tms tdi s).2 = cycleEvents s.cfg s.tclkLatch s.tap ⟨tms, tdi⟩ (answerAt 0 s) := by
  rw [newEvents, tapCycle_trace, List.drop_left]

theorem tapCycle_pins :
    (tapCycle tms tdi s).2.pins =
      applyEvents s.pins (cycleEvents s.cfg s.tclkLatch s.tap ⟨tms, tdi⟩ (answerAt 0 s)) := by
  rw [tapCycle_eq]; exact congrArg (applyEvents · _) (useAnswer_pins s)

end

/-- R103: the events of a cycle in the 4-wire variant. -/
theorem cycleEvents_jtag4 {cfg : Config} (hl : cfg.link = .jtag4) (latch : Bit) (q : TapState) (c : Cycle) (b : Bit) :
    cycleEvents cfg latch q c b = cycle4Events c b := by rw [cycleEvents, hl]

/-- R103: the events of a cycle in the Spy-Bi-Wire variant. -/
theorem cycleEvents_sbw {cfg : Config} (hl : cfg.link = .sbw) (latch : Bit) (q : TapState) (c : Cycle) (b : Bit) :
    cycleEvents cfg latch q c b = cycleSbwEvents cfg.tdoSample latch q c b := by rw [cycleEvents, hl]

/-! The 4-wire cycle. -/

/-- R105, R106: the registers a 4-wire cycle leaves. -/
theorem tapCycle_pins_jtag4 {s : State} (hl : s.cfg.link = .jtag4) {p : Jtag4Pins} (hp : s.pins = .jtag4 p) (tms : Bit)
    (tdi : Option Bit) : (tapCycle tms tdi s).2.pins = .jtag4 (jtag4Cycle p ⟨tms, tdi⟩) := by
  rw [tapCycle_pins, cycleEvents_jtag4 hl, hp]
  exact applyEvents_of_replay (replay_cycle4 p _ _)

/-- Settles O11: the cycle's events by whether it carries a TDI bit, its other effects field by field. -/
theorem fourWireCycleEvents : Obligations.FourWireCycleEvents := by
  intro s tms hl
  have htrace : ∀ tdi, (tapCycle tms tdi s).2.trace = s.trace ++ cycle4Events ⟨tms, tdi⟩ (tapCycle tms tdi s).1 :=
    fun tdi => by rw [tapCycle_trace, tapCycle_bit, cycleEvents_jtag4 hl]
  exact ⟨fun d => htrace (some d), htrace none, fun tdi => ⟨tapCycle_bit tms tdi s, tapCycle_tap tms tdi s,
    tapCycle_tclkLatch tms tdi s, fun p hp => tapCycle_pins_jtag4 hl hp tms tdi⟩⟩

theorem set_tclk_not_mem_cycle4Events (v : Bit) (c : Cycle) (b : Bit) : .set .tclk v ∉ cycle4Events c b := by
  rcases c with ⟨tms, _ | d⟩ <;> simp [cycle4Events]

/-- Settles O15: R105 lists no write of `TCLK`; the shared binding fails the launch premise `L_binding`. -/
theorem fourWireCyclesLeaveTclk : Obligations.FourWireCyclesLeaveTclk := by
  refine ⟨fun s tms tdi v hl => ?_, fun i s hl hb => ?_⟩
  · rw [tapCycle_newEvents, cycleEvents_jtag4 hl]
    exact set_tclk_not_mem_cycle4Events v _ _
  · have hn : ¬ Launch s := fun h => h.binding ⟨hl, hb⟩
    obtain ⟨r, _, hr⟩ := exec_not_launch hn i
    exact ⟨r, hr⟩

/-! The SBW cycle. -/

/-- R110: the slot holds the line only when the cycle idles the tracker and the latch is 1. -/
theorem slotTmsEvents_entersIdle (q : TapState) (latch tms : Bit) :
    slotTmsEvents (entersIdle q tms) latch tms =
      if tapNext q tms = .runTestIdle ∧ latch = true then
        [.set .sbwtdio true, .set .sbwtck false, .set .sbwtdio false, .set .sbwtck true]
      else [.set .sbwtdio tms, .set .sbwtck false, .set .sbwtck true] := by
  by_cases h : tapNext q tms = .runTestIdle
  · cases latch <;> simp [entersIdle, h, slotTmsEvents]
  · have hidle : entersIdle q tms = false := by simpa [entersIdle] using h
    simp [hidle, h, slotTmsEvents]

/-- One spec lemma for phase (a) (R110): the events the slot appends. -/
theorem slotTms_trace (tms : Bit) (s : State) :
    (slotTms tms s).trace = s.trace ++ slotTmsEvents (entersIdle s.tap tms) s.tclkLatch tms := by
  rw [slotTmsEvents_entersIdle]
  by_cases h : tapNext s.tap tms = .runTestIdle ∧ s.tclkLatch = true
  · simp [slotTms, idleSlot, h]
  · simp [slotTms, idleSlot, h, pulse]

/-- R110: a slot that does not hold the line. -/
theorem slotTms_trace_plain {tms : Bit} {s : State} (h : ¬ (tapNext s.tap tms = .runTestIdle ∧ s.tclkLatch = true)) :
    (slotTms tms s).trace = s.trace ++ [.set .sbwtdio tms, .set .sbwtck false, .set .sbwtck true] := by
  rw [slotTms_trace, slotTmsEvents_entersIdle, if_neg h]

/-- Settles O14: by the corner case of R101, only the second row's slots are idle ones under a latch of 1. -/
theorem sbwTmsSlotCases : Obligations.SbwTmsSlotCases := by
  refine ⟨fun s _ hlatch => ?idleLow, fun s hq hlatch => ?idleHigh, fun s => ?tmsHigh, fun s hq => ?shiftPath⟩
  case idleLow => exact slotTms_trace_plain fun h => by simp [hlatch] at h
  case idleHigh =>
    have hidle : tapNext s.tap false = .runTestIdle := (tapNext_eq_runTestIdle_iff _ _).2 ⟨rfl, .inr hq⟩
    rw [slotTms_trace, slotTmsEvents_entersIdle, if_pos ⟨hidle, hlatch⟩]
  case tmsHigh => exact slotTms_trace_plain fun h => by simp [tapNext_eq_runTestIdle_iff] at h
  case shiftPath =>
    refine slotTms_trace_plain fun ⟨hidle, _⟩ => ?_
    rcases (tapNext_eq_runTestIdle_iff _ _).1 hidle with ⟨_, h | h | h | h⟩ <;> simp [h] at hq

/-- R110: the line is at the latch at an idle slot's falling edge, and at `tms` at every other edge of phase (a). -/
theorem edgeLevels_slotTmsEvents (line : Bit) (q : TapState) (latch tms : Bit) (es : List PinEvent) :
    edgeLevels line .output (slotTmsEvents (entersIdle q tms) latch tms ++ es) =
      ⟨false, some (if tapNext q tms = .runTestIdle then latch else tms)⟩ :: ⟨true, some tms⟩ ::
        edgeLevels tms .output es := by
  by_cases hidle : tapNext q tms = .runTestIdle
  · obtain rfl : tms = false := ((tapNext_eq_runTestIdle_iff _ _).1 hidle).1
    cases latch <;> simp [slotTmsEvents_entersIdle, hidle, edgeLevels]
  · simp [slotTmsEvents_entersIdle, hidle, edgeLevels]

/-- R115: the levels at the six edges of a cycle that begins with the line driven. -/
theorem edgeLevels_cycleSbwEvents (line : Bit) (ts : TdoSample) (latch : Bit) (q : TapState) (c : Cycle) (b : Bit) :
    edgeLevels line .output (cycleSbwEvents ts latch q c b) =
      [⟨false, some (if tapNext q c.tms = .runTestIdle then latch else c.tms)⟩, ⟨true, some c.tms⟩,
       ⟨false, some (c.tdi.getD latch)⟩, ⟨true, some (c.tdi.getD latch)⟩, ⟨false, none⟩, ⟨true, none⟩] := by
  rw [cycleSbwEvents, List.append_assoc, List.append_assoc, edgeLevels_slotTmsEvents]
  cases ts <;> rfl

/-- R113: the registers an SBW cycle leaves, whatever they held before it. -/
theorem tapCycle_pins_sbw {s : State} (hl : s.cfg.link = .sbw) {p : SbwPins} (hp : s.pins = .sbw p) (tms : Bit)
    (tdi : Option Bit) :
    (tapCycle tms tdi s).2.pins = .sbw { sbwtck := true, tdioOut := s.tclkLatch, tdioDir := .output } := by
  rw [tapCycle_pins, cycleEvents_sbw hl, hp]
  exact applyEvents_of_replay (replay_cycleSbw p _ _ _ _ _)

/-- Settles O12: the four slots of R114 in turn; R110's two edges are the first two of R115's six. -/
theorem sbwCycleEvents : Obligations.SbwCycleEvents := by
  intro s tms tdi hl
  refine ⟨tapCycle_bit tms tdi s, ?events, ?edges, tapCycle_tap tms tdi s, tapCycle_tclkLatch tms tdi s,
    fun p hp => tapCycle_pins_sbw hl hp tms tdi⟩
  case events =>
    rw [tapCycle_trace, cycleEvents_sbw hl, cycleSbwEvents, slotTmsEvents_entersIdle]
    simp only [List.append_assoc]
    cases tdi <;> cases s.cfg.tdoSample <;> rfl
  case edges => rw [tapCycle_newEvents, cycleEvents_sbw hl, edgeLevels_cycleSbwEvents]; rfl

/-- Settles O13: the six edges of any SBW cycle, and the idle pattern as the registers its legal events leave. -/
theorem sbwCycleLevels : Obligations.SbwCycleLevels := by
  intro s tms tdi hl hidle
  have hpins : (tapCycle tms tdi s).2.pins = .sbw { sbwtck := true, tdioOut := s.tclkLatch, tdioDir := .output } :=
    tapCycle_pins_sbw hl hidle tms tdi
  rw [tapCycle_newEvents, cycleEvents_sbw hl]
  refine ⟨edgeLevels_cycleSbwEvents _ _ _ _ _ _, ?_, ?_⟩
  · rw [hidle, hpins, replay_cycleSbw]
  · rw [SbwPinsIdle, hpins, tapCycle_tclkLatch]

/-! The cycles of a shift. -/

/-- R131 to R133: the TAP cycles a shift performs. -/
def opCycles : Instr → List Cycle
  | .irShift d => shiftCycles .ir 8 d
  | .drShift8 d => shiftCycles .dr 8 d
  | .drShift16 d => shiftCycles .dr 16 d
  | .tclkClear => []
  | .tclkSet => []

/-- R118: the logical cycles an observer reads off a shift are those of `opCycles`. -/
theorem logicalCycles_opEvents {i : Instr} {s : State} (hs : isShift i = true) (h : Launch s) :
    ∃ hold, logicalCycles s.pins (opEvents i s) = logicalOf s.cfg.link hold (opCycles i) (fun j => answerAt j s) := by
  cases i with
  | irShift d => exact logicalCycles_shift h .ir 8 d
  | drShift8 d => exact logicalCycles_shift h .dr 8 d
  | drShift16 d => exact logicalCycles_shift h .dr 16 d
  | tclkClear => cases hs
  | tclkSet => cases hs

/-- R102: the TMS values of an operation's cycles. -/
theorem opCycles_tms (i : Instr) : (opCycles i).map (·.tms) = walkTms i := by
  cases i with
  | irShift _ | drShift8 _ | drShift16 _ | tclkClear | tclkSet => rfl

/-- R101, R102: the states those values walk a TAP through. -/
theorem tapWalk_walkTms (i : Instr) : tapWalk .runTestIdle (walkTms i) = walkStates i := by
  cases i with
  | irShift _ | drShift8 _ | drShift16 _ | tclkClear | tclkSet => rfl

/-- R102: a shift of `N` bits takes `N + 5` cycles, or `N + 6`. -/
theorem walkTms_length {i : Instr} (hs : isShift i = true) : (walkTms i).length = cyclesIn i + dataWidth i + 2 := by
  cases i with
  | irShift _ | drShift8 _ | drShift16 _ => rfl
  | tclkClear => cases hs
  | tclkSet => cases hs

/-- Settles O20: the TMS values read off the pins are those of the shift's cycles. -/
theorem shiftWalksTheStandardPath : Obligations.ShiftWalksTheStandardPath := by
  intro i s hs h
  obtain ⟨hold, hcycles⟩ := logicalCycles_opEvents hs h
  refine ⟨opResult i s, exec_launch h i, ?_, tapWalk_walkTms i, walkTms_length hs⟩
  rw [newEvents_opResult, hcycles, logicalOf_tms, opCycles_tms]

/-! The two variants at the logical level. -/

/-- R118: TMS and TDO of a shift's logical cycles, whatever the variant. -/
theorem logicalCycles_opEvents_tms_tdo {i : Instr} {s : State} (hs : isShift i = true) (h : Launch s) :
    (logicalCycles s.pins (opEvents i s)).map (fun c => (c.tms, c.tdo)) =
      (walkTms i).zip ((List.range (cyclesIn i + dataWidth i + 2)).map fun j => answerAt j s) := by
  obtain ⟨hold, hcycles⟩ := logicalCycles_opEvents hs h
  have hlen : (opCycles i).length = cyclesIn i + dataWidth i + 2 := by
    rw [← walkTms_length hs, ← opCycles_tms, List.length_map]
  rw [hcycles, ← List.zip_map', logicalOf_tms, logicalOf_tdo, opCycles_tms, hlen]

/-- R55, R118: the TDI of a shift's data cycles, whatever the variant. -/
theorem logicalCycles_opEvents_tdi {i : Instr} {s : State} (hs : isShift i = true) (h : Launch s) {k : Nat}
    (hk : k < dataWidth i) :
    ((logicalCycles s.pins (opEvents i s))[cyclesIn i + k]?).map (·.tdi) = some ((operandOf i).getLsbD k) := by
  simpa using congrArg (Option.map Prod.fst) (logicalCycles_opEvents_data hs h hk)

/-- R118, R150: a TCLK operation is no cycle in `JTAG4`, and in `SBW` one with the new level as TDI. -/
theorem logicalCycles_tclkEvents {s : State} (h : Launch s) (v : Bit) :
    (s.cfg.link = .jtag4 ∧ logicalCycles s.pins (tclkEvents v s) = []) ∨
    (s.cfg.link = .sbw ∧ logicalCycles s.pins (tclkEvents v s) = [⟨false, v, answerAt 0 s⟩]) := by
  rcases h.link_pins with ⟨hl, tdi, tclk, hp⟩ | ⟨hl, hp⟩
  · refine .inl ⟨hl, ?_⟩
    rw [hp, tclkEvents, hl]
    rfl
  · refine .inr ⟨hl, ?_⟩
    have hcycle := logicalSbw_slots s.tclkLatch s.cfg.tdoSample s.tclkLatch .runTestIdle false v v (answerAt 0 s) []
    rw [List.append_nil] at hcycle
    rw [hp, tclkEvents, hl]
    exact hcycle

/-- The events of the TCLK operation that drives the level `v` (R151, R152). -/
theorem opEvents_tclk (v : Bit) (s : State) : opEvents (if v then .tclkSet else .tclkClear) s = tclkEvents v s := by
  cases v <;> rfl

/-- Settles O49: TMS, TDO and the data cycles' TDI do not name the variant; a TCLK operation by its variant. -/
theorem variantsAgreeAtTheLogicalLevel : Obligations.VariantsAgreeAtTheLogicalLevel := by
  refine ⟨fun i s u s' u' hs _ _ hanswers hexec hexec' => ?_, fun s s' v hexec => ?_⟩
  · obtain ⟨h, rfl⟩ := (exec_next_iff i s s').1 hexec
    obtain ⟨h', rfl⟩ := (exec_next_iff i u u').1 hexec'
    simp only [newEvents_opResult]
    refine ⟨?_, fun k hk => ?_⟩
    · rw [logicalCycles_opEvents_tms_tdo hs h, logicalCycles_opEvents_tms_tdo hs h',
        List.map_congr_left fun j hj => hanswers j (List.mem_range.1 hj)]
    · rw [logicalCycles_opEvents_tdi hs h hk, logicalCycles_opEvents_tdi hs h' hk]
  · obtain ⟨h, rfl⟩ := (exec_next_iff _ s s').1 hexec
    rw [newEvents_opResult, opEvents_tclk]
    rcases logicalCycles_tclkEvents h v with ⟨hl, hcycles⟩ | ⟨hl, hcycles⟩
    · simp only [hl, hcycles, List.map_nil]
    · simp only [hl, hcycles, List.map_cons, List.map_nil]

end Sys2Proof.Machine
end

section
/-! PROOFS. The three shifts (spec/41_shift.md): what each answers and emits, its frame, its result, and its sizes. -/

namespace Sys2Proof.Machine

/-! What the closed form of an operation is for a shift. -/

@[simp] theorem opResult_busy (i : Instr) (s : State) : (opResult i s).busy = s.busy := useAnswers_busy s _
@[simp] theorem opResult_tap (i : Instr) (s : State) : (opResult i s).tap = s.tap := useAnswers_tap s _
@[simp] theorem opResult_target (i : Instr) (s : State) :
    (opResult i s).target = { s.target with tclk := opTclk i s } := rfl

/-- The events of a shift are those of its TAP cycles, from Run-Test/Idle (R130). -/
theorem opEvents_eq_cyclesEvents {i : Instr} (hs : isShift i = true) (s : State) :
    opEvents i s = cyclesEvents s.cfg s.tclkLatch .runTestIdle (opCycles i) (fun j => answerAt j s) := by
  cases i with
  | irShift _ | drShift8 _ | drShift16 _ => rfl
  | tclkClear | tclkSet => cases hs

/-- R102: `N` data cycles, two cycles out, and three or four in. -/
theorem opCycles_length {i : Instr} (hs : isShift i = true) : (opCycles i).length = cyclesIn i + dataWidth i + 2 := by
  rw [← walkTms_length hs, ← opCycles_tms, List.length_map]

/-- One sample a cycle (R137). -/
theorem opSamples_shift {i : Instr} (hs : isShift i = true) (s : State) :
    opSamples i s = cyclesIn i + dataWidth i + 2 := by
  cases i with
  | irShift _ | drShift8 _ | drShift16 _ => rfl
  | tclkClear | tclkSet => cases hs

/-- R24: no shift writes the latch. -/
theorem opLatch_shift {i : Instr} (hs : isShift i = true) (s : State) : opLatch i s = s.tclkLatch := by
  cases i with
  | irShift _ | drShift8 _ | drShift16 _ => rfl
  | tclkClear | tclkSet => cases hs

/-- R135: a shift keeps the logical TCLK level. -/
theorem opTclk_shift {i : Instr} (hs : isShift i = true) (s : State) : opTclk i s = logicalTclk s := by
  cases i with
  | irShift _ | drShift8 _ | drShift16 _ => rfl
  | tclkClear | tclkSet => cases hs

theorem logicalTclk_opResult_shift {i : Instr} {s : State} (hs : isShift i = true) (h : Launch s) :
    logicalTclk (opResult i s) = logicalTclk s :=
  (logicalTclk_opResult h i).trans (opTclk_shift hs s)

/-- R118: the observer reads off one logical cycle per TAP cycle. -/
theorem logicalCycles_opEvents_length {i : Instr} {s : State} (hs : isShift i = true) (h : Launch s) :
    (logicalCycles s.pins (opEvents i s)).length = cyclesIn i + dataWidth i + 2 := by
  obtain ⟨hold, hcycles⟩ := logicalCycles_opEvents hs h
  rw [hcycles, logicalOf_length, opCycles_length hs]

/-! Completion (R131 to R133). -/

/-- R130: a shift from a launch state runs; its response, events and flags. -/
theorem exec_shift_launch {i : Instr} {s : State} (hs : isShift i = true) (h : Launch s) :
    exec i s = .next (opResult i s) ∧
    (opResult i s).responses = s.responses ++ [opResponse i s] ∧
    (opResult i s).trace = s.trace ++ opEvents i s ∧
    (logicalCycles s.pins (opEvents i s)).length = cyclesIn i + dataWidth i + 2 ∧
    (opResult i s).tap = .runTestIdle ∧ (opResult i s).tclkLatch = s.tclkLatch ∧
    logicalTclk (opResult i s) = logicalTclk s :=
  ⟨exec_launch h i, opResult_responses i s, opResult_trace i s, logicalCycles_opEvents_length hs h,
    (opResult_launch h i).tap, opLatch_shift hs s, logicalTclk_opResult_shift hs h⟩

/-- Settles O16, the shift of four cycles in and eight data bits. -/
theorem irShiftFromLaunch : Obligations.IrShiftFromLaunch := by
  intro s d h
  obtain ⟨hexec, heffect⟩ := exec_shift_launch (i := .irShift d) rfl h
  exact ⟨_, hexec, rfl, heffect⟩

/-- Settles O17, the shift of three cycles in and eight data bits. -/
theorem drShift8FromLaunch : Obligations.DrShift8FromLaunch := by
  intro s d h
  obtain ⟨hexec, heffect⟩ := exec_shift_launch (i := .drShift8 d) rfl h
  exact ⟨_, hexec, rfl, heffect⟩

/-- Settles O18, the shift of three cycles in and sixteen data bits. -/
theorem drShift16FromLaunch : Obligations.DrShift16FromLaunch := by
  intro s d h
  obtain ⟨hexec, heffect⟩ := exec_shift_launch (i := .drShift16 d) rfl h
  exact ⟨_, hexec, rfl, heffect⟩

/-! The frame. -/

/-- R33: in `SBW` a launch state's registers are the idle pattern. -/
theorem Launch.of_sbw_pins {s : State} (h : Launch s) {p : SbwPins} (hp : s.pins = .sbw p) :
    s.cfg.link = .sbw ∧ p = { sbwtck := true, tdioOut := s.tclkLatch, tdioDir := .output } := by
  rcases h.link_pins with ⟨_, _, _, hq⟩ | ⟨hl, hq⟩
  · cases hp.symm.trans hq
  · exact ⟨hl, Pins.sbw.inj (hp.symm.trans hq)⟩

/-- R34: in `JTAG4` a launch state has TCK at 1 and TMS at 0. -/
theorem Launch.of_jtag4_pins {s : State} (h : Launch s) {p : Jtag4Pins} (hp : s.pins = .jtag4 p) :
    s.cfg.link = .jtag4 ∧ p.tck = true ∧ p.tms = false := by
  rcases h.link_pins with ⟨hl, tdi, tclk, hq⟩ | ⟨_, hq⟩
  · cases hp.symm.trans hq
    exact ⟨hl, rfl, rfl⟩
  · cases hp.symm.trans hq

/-- R33: a shift ends with the lines of `SBW` where it found them. -/
theorem opPins_shift_sbw {i : Instr} {s : State} (hs : isShift i = true) (h : Launch s) {p : SbwPins}
    (hp : s.pins = .sbw p) : opPins i s = s.pins := by
  obtain ⟨_, rfl⟩ := h.of_sbw_pins hp
  rw [opPins, hp, opLatch_shift hs]

/-- R34, R106: a shift leaves on TDI the last data bit it presented, and the other lines of `JTAG4` as they were. -/
theorem opPins_shift_jtag4 {i : Instr} {s : State} (hs : isShift i = true) (h : Launch s) {p : Jtag4Pins}
    (hp : s.pins = .jtag4 p) : opPins i s = .jtag4 { p with tdi := (operandOf i).getLsbD (dataWidth i - 1) } := by
  obtain ⟨_, htck, htms⟩ := h.of_jtag4_pins hp
  rw [opPins, hp, htck, htms]
  cases i with
  | irShift d | drShift8 d => simp [operandOf, dataWidth]
  | drShift16 d => rfl
  | tclkClear | tclkSet => cases hs

/-- R105: no 4-wire cycle writes TCLK, so no list of them does. -/
theorem set_tclk_not_mem_cyclesEvents {cfg : Config} (hl : cfg.link = .jtag4) (v latch : Bit) (q : TapState)
    (cs : List Cycle) (a : Nat → Bit) : .set .tclk v ∉ cyclesEvents cfg latch q cs a := by
  induction cs generalizing q a with
  | nil => exact List.not_mem_nil
  | cons c cs ih =>
    rw [cyclesEvents, cycleEvents_jtag4 hl, List.mem_append, not_or]
    exact ⟨set_tclk_not_mem_cycle4Events v c _, ih _ _⟩

theorem opResult_slot_jtag4 (i : Instr) {s : State} (hl : s.cfg.link = .jtag4) : (opResult i s).slot = s.slot := by
  simp only [opResult, hl]

/-- Settles O19, field by field of the operation's result, the lines by their variant. -/
theorem shiftFrame : Obligations.ShiftFrame := by
  intro i s t hs hexec
  obtain ⟨h, rfl⟩ := (exec_next_iff i s t).1 hexec
  refine ⟨opResult_cfg i s, opResult_tap i s, opLatch_shift hs s, opResult_busy i s, opResult_constructed i s, ?target,
    opResult_inputs i s, List.prefix_append _ _, List.prefix_append _ _, fun j => ?answers,
    fun p hp => opPins_shift_sbw hs h hp, fun p hp => ?jtag4⟩
  case target => rw [opResult_target, opTclk_shift hs, ← h.tclk]
  case answers => rw [answerAt_opResult, opSamples_shift hs]
  case jtag4 =>
    obtain ⟨hl, _⟩ := h.of_jtag4_pins hp
    refine ⟨opResult_slot_jtag4 i hl, fun b => ?_, opPins_shift_jtag4 hs h hp⟩
    rw [newEvents_opResult, opEvents_eq_cyclesEvents hs]
    exact set_tclk_not_mem_cyclesEvents hl b _ _ _ _

/-! The accumulator and the response (R134). -/

theorem opResult_opnd_shift {i : Instr} (hs : isShift i = true) (s : State) : (opResult i s).opnd = operandOf i :=
  if_pos hs

theorem opResult_acc_shift {i : Instr} (hs : isShift i = true) (s : State) :
    (opResult i s).acc = accAfter (dataWidth i) (fun j => answerAt (cyclesIn i + j) s) 0 := if_pos hs

/-- R56: the response is the accumulator. -/
theorem opResponse_eq_acc {i : Instr} (hs : isShift i = true) (s : State) :
    opResponse i s = okResponse (opResult i s).acc := by
  rw [opResponse, opResult_acc_shift hs, accAfter_ofNat _ (dataWidth_le i)]

/-- Settles O22: the value and the bits of what the data cycles accumulate from 0. -/
theorem accumulatorHoldsTheResult : Obligations.AccumulatorHoldsTheResult := by
  intro i s hs h
  have hw : dataWidth i ≤ 16 := dataWidth_le i
  have hvalue : (opResult i s).acc.toNat = resultValue (dataWidth i) (fun k => answerAt (cyclesIn i + k) s) := by
    rw [opResult_acc_shift hs, accAfter_toNat _ hw]
  refine ⟨opResult i s, exec_launch h i, ?response, opResult_opnd_shift hs s, hvalue, ?fits, fun j hj => ?bits⟩
  case response => rw [opResult_responses, opResponse_eq_acc hs, okResponse]
  case fits =>
    rw [hvalue]
    exact resultValue_lt _ _
  case bits => rw [opResult_acc_shift hs, accAfter_getLsbD _ _ _ _ (by omega), if_pos hj]

/-- R134: the result's value is a sum over the data cycles' answers alone. -/
theorem resultValue_congr {n : Nat} {a b : Nat → Bit} (hab : ∀ k < n, a k = b k) : resultValue n a = resultValue n b := by
  unfold resultValue
  rw [List.map_congr_left fun k hk => by rw [hab k (List.mem_range.1 hk)]]

/-- Settles O25: the one response is the result of the data cycles' answers. -/
theorem responseDependsOnDataAnswersOnly : Obligations.ResponseDependsOnDataAnswersOnly := by
  intro i s u s' u' hexec hexec' hanswers
  obtain ⟨_, rfl⟩ := (exec_next_iff i s s').1 hexec
  obtain ⟨_, rfl⟩ := (exec_next_iff i u u').1 hexec'
  rw [opResult_responses, opResult_responses, List.drop_left, List.drop_left, opResponse, opResponse,
    resultValue_congr hanswers]

/-! The clock level (R135) and the sizes (R137). -/

/-- R113, R135: the line rests at the latched level once per TAP cycle. -/
theorem restLevels_opEvents {i : Instr} {s : State} (hs : isShift i = true) (hl : s.cfg.link = .sbw) (line : Bit) :
    restLevels line (opEvents i s) = List.replicate (cyclesIn i + dataWidth i + 2) s.tclkLatch := by
  rw [opEvents_eq_cyclesEvents hs, restLevels_cycles _ hl, opCycles_length hs]

/-- Settles O23: a shift ends in a launch state, whose lines are idle at the latched level. -/
theorem shiftPreservesTheClockLevel : Obligations.ShiftPreservesTheClockLevel := by
  intro i s hs h
  have ht : Launch (opResult i s) := opResult_launch h i
  refine ⟨opResult i s, exec_launch h i, logicalTclk_opResult_shift hs h, ht.tap, ht.pins, fun hl => ⟨?rests, ?pins⟩⟩
  case rests => rw [newEvents_opResult, restLevels_opEvents hs hl]
  case pins =>
    rcases h.link_pins with ⟨hl', _⟩ | ⟨_, hp⟩
    · cases hl.symm.trans hl'
    · rw [opResult_pins, opPins_shift_sbw hs h hp, hp]

/-- R105, R106: four events a 4-wire cycle, and one more where the cycle carries a TDI bit. -/
theorem sum_cycle4_sizes (cs : List Cycle) :
    (cs.map fun c => 4 + c.tdi.isSome.toNat).sum = 4 * cs.length + cs.countP (·.tdi.isSome) := by
  induction cs with
  | nil => rfl
  | cons c cs ih =>
    rw [List.map_cons, List.sum_cons, ih, List.length_cons, List.countP_cons]
    cases c.tdi with
    | none => simp only [Option.isSome_none, Bool.toNat_false, Bool.false_eq_true, if_false]; omega
    | some _ => simp only [Option.isSome_some, Bool.toNat_true, if_true]; omega

/-- R130: the cycles that carry a TDI bit are the data cycles. -/
theorem shiftCycles_countP_data (kind : ShiftKind) (n : Nat) (data : BitVec n) :
    (shiftCycles kind n data).countP (·.tdi.isSome) = n := by
  have hdata : (dataCyclesOf n data).countP (·.tdi.isSome) = n := by simp [dataCyclesOf, Function.comp_def]
  have hin : (enterCycles kind).countP (·.tdi.isSome) = 0 := by cases kind <;> rfl
  rw [shiftCycles, List.countP_append, List.countP_append, hin, hdata, Nat.zero_add]
  rfl

theorem opCycles_countP_data (i : Instr) : (opCycles i).countP (·.tdi.isSome) = dataWidth i := by
  cases i with
  | irShift _ | drShift8 _ | drShift16 _ => exact shiftCycles_countP_data _ _ _
  | tclkClear | tclkSet => rfl

/-- R102, R110: the last cycle of a shift, into Run-Test/Idle, is its one idle slot. -/
theorem idleSlots_walkTms {i : Instr} (hs : isShift i = true) : idleSlots .runTestIdle (walkTms i) = 1 := by
  cases i with
  | irShift _ | drShift8 _ | drShift16 _ => rfl
  | tclkClear | tclkSet => cases hs

theorem opEvents_sizes_jtag4 {i : Instr} {s : State} (hs : isShift i = true) (hl : s.cfg.link = .jtag4) :
    (opEvents i s).length = 4 * (cyclesIn i + dataWidth i + 2) + dataWidth i ∧
      (opEvents i s).countP isPulse = cyclesIn i + dataWidth i + 2 ∧
      (opEvents i s).countP isSample = cyclesIn i + dataWidth i + 2 := by
  rw [opEvents_eq_cyclesEvents hs, ← opCycles_length hs, ← opCycles_countP_data, ← sum_cycle4_sizes]
  exact cycles4_counts s.cfg hl _ _ _ _

theorem opEvents_sizes_sbw {i : Instr} {s : State} (hs : isShift i = true) (hl : s.cfg.link = .sbw) :
    (opEvents i s).length = 12 * (cyclesIn i + dataWidth i + 2) + s.tclkLatch.toNat ∧
      (opEvents i s).countP isPulse = 3 * (cyclesIn i + dataWidth i + 2) ∧
      (opEvents i s).countP isSample = cyclesIn i + dataWidth i + 2 := by
  rw [opEvents_eq_cyclesEvents hs, ← opCycles_length hs, ← Nat.mul_one s.tclkLatch.toNat, ← idleSlots_walkTms hs,
    ← opCycles_tms]
  exact cyclesSbw_counts s.cfg hl _ _ _ _

/-- Settles O24: the sizes of the variant, at each shift's number of cycles. -/
theorem shiftSizes : Obligations.ShiftSizes := by
  intro i s hs h
  refine ⟨opResult i s, exec_launch h i, ?_⟩
  rw [newEvents_opResult, logicalCycles_opEvents_length hs h]
  cases hl : s.cfg.link with
  | jtag4 =>
    obtain ⟨hlen, hpulses, hsamples⟩ := opEvents_sizes_jtag4 hs hl
    rw [hlen, hpulses, hsamples]
    cases i with
    | irShift _ | drShift8 _ | drShift16 _ => rfl
    | tclkClear | tclkSet => cases hs
  | sbw =>
    obtain ⟨hlen, hpulses, hsamples⟩ := opEvents_sizes_sbw hs hl
    rw [hlen, hpulses, hsamples]
    cases i with
    | irShift _ | drShift8 _ | drShift16 _ => rfl
    | tclkClear | tclkSet => cases hs

end Sys2Proof.Machine
end

section
/-! PROOFS. The two TCLK operations (spec/42_tclk.md): what each answers and emits, its frame, the levels and the size of its one
cycle, and that the level stays through shifts. -/

namespace Sys2Proof.Machine

/-! The lines and the level of a launch state in `SBW`. -/

/-- R33: in `SBW` the lines of a launch state rest at the latch. -/
theorem Launch.pins_sbw {s : State} (h : Launch s) (hl : s.cfg.link = .sbw) :
    s.pins = .sbw { sbwtck := true, tdioOut := s.tclkLatch, tdioDir := .output } := by
  rcases h.link_pins with ⟨hl', _⟩ | ⟨_, hp⟩
  · cases hl.symm.trans hl'
  · exact hp

/-- R35: in `SBW` the logical TCLK level is the latch. -/
theorem Launch.logicalTclk_sbw {s : State} (h : Launch s) (hl : s.cfg.link = .sbw) : logicalTclk s = s.tclkLatch := by
  rw [logicalTclk, h.pins_sbw hl]

/-! What the closed form of an operation is for a TCLK operation. -/

/-- The operation that sets the logical TCLK level to `v` (R151, R152). -/
abbrev tclkOp (v : Bit) : Instr := if v then .tclkSet else .tclkClear

/-- R61: an operation that is no shift is one of the two TCLK operations. -/
theorem exists_eq_tclkOp {i : Instr} (hs : isShift i = false) : ∃ v, i = tclkOp v := by
  cases i with
  | irShift _ | drShift8 _ | drShift16 _ => cases hs
  | tclkClear => exact ⟨false, rfl⟩
  | tclkSet => exact ⟨true, rfl⟩

theorem isShift_tclkOp (v : Bit) : isShift (tclkOp v) = false := by
  cases v <;> rfl

theorem opTclk_tclkOp (v : Bit) (s : State) : opTclk (tclkOp v) s = v := by
  cases v <;> rfl

/-- R151, R152: the response carries no data. -/
theorem opResponse_tclkOp (v : Bit) (s : State) : opResponse (tclkOp v) s = 0x00000#17 := by
  have hwidth : dataWidth (tclkOp v) = 0 := by cases v <;> rfl
  have hvalue : ∀ a, resultValue 0 a = 0 := fun _ => rfl
  rw [opResponse, hwidth, hvalue]
  rfl

/-- R150: in `SBW` the operation writes the latch. -/
theorem opLatch_tclkOp_sbw (v : Bit) {s : State} (hl : s.cfg.link = .sbw) : opLatch (tclkOp v) s = v := by
  cases v <;> simp [tclkOp, opLatch, hl]

/-- R24: in `JTAG4` nothing writes the latch. -/
theorem opLatch_tclkOp_jtag4 (v : Bit) {s : State} (hl : s.cfg.link = .jtag4) :
    opLatch (tclkOp v) s = s.tclkLatch := by
  cases v <;> simp [tclkOp, opLatch, hl]

/-- R150: the one cycle in `SBW` takes one sample. -/
theorem opSamples_tclkOp_sbw (v : Bit) {s : State} (hl : s.cfg.link = .sbw) : opSamples (tclkOp v) s = 1 := by
  cases v <;> simp [tclkOp, opSamples, hl]

theorem opSamples_tclkOp_jtag4 (v : Bit) {s : State} (hl : s.cfg.link = .jtag4) : opSamples (tclkOp v) s = 0 := by
  cases v <;> simp [tclkOp, opSamples, hl]

/-- R33, R150: the idle pattern at the new level. -/
theorem opPins_tclkOp_sbw (v : Bit) {s : State} (h : Launch s) (hl : s.cfg.link = .sbw) :
    opPins (tclkOp v) s = .sbw { sbwtck := true, tdioOut := v, tdioDir := .output } := by
  rw [opPins, h.pins_sbw hl, opLatch_tclkOp_sbw v hl]

theorem opPins_tclkOp_jtag4 (v : Bit) {s : State} {p : Jtag4Pins} (hp : s.pins = .jtag4 p) :
    opPins (tclkOp v) s = .jtag4 { p with tclk := v } := by
  cases v <;> simp [tclkOp, opPins, hp]

theorem tclkEvents_jtag4 (v : Bit) {s : State} (hl : s.cfg.link = .jtag4) : tclkEvents v s = [.set .tclk v] := by
  rw [tclkEvents, hl]

/-- R150: the cycle's TMS slot is an idle one, and its TDI slot and its end carry the new level. -/
theorem tclkEvents_sbw (v : Bit) {s : State} (hl : s.cfg.link = .sbw) :
    tclkEvents v s = slotTmsEvents (entersIdle .runTestIdle false) s.tclkLatch false ++ slotTdiEvents v ++
      slotTdoEvents s.cfg.tdoSample (answerAt 0 s) ++ restoreEvents v := by
  rw [tclkEvents, hl]
  rfl

/-! Completion (R151, R152). -/

/-- R150: a TCLK operation from a launch state runs; its response, events and flags. -/
theorem exec_tclkOp_launch (v : Bit) {s : State} (h : Launch s) :
    exec (tclkOp v) s = .next (opResult (tclkOp v) s) ∧
    (opResult (tclkOp v) s).responses = s.responses ++ [0x00000#17] ∧
    (opResult (tclkOp v) s).trace = s.trace ++ tclkEvents v s ∧
    logicalTclk (opResult (tclkOp v) s) = v ∧
    (s.cfg.link = .sbw → (opResult (tclkOp v) s).tclkLatch = v ∧
      (opResult (tclkOp v) s).pins = .sbw { sbwtck := true, tdioOut := v, tdioDir := .output }) ∧
    (∀ p, s.pins = .jtag4 p → (opResult (tclkOp v) s).pins = .jtag4 { p with tclk := v }) := by
  refine ⟨exec_launch h _, ?response, ?events, ?level, fun hl => ⟨opLatch_tclkOp_sbw v hl, opPins_tclkOp_sbw v h hl⟩,
    fun p hp => opPins_tclkOp_jtag4 v hp⟩
  case response => rw [opResult_responses, opResponse_tclkOp]
  case events => rw [opResult_trace, opEvents_tclk]
  case level => rw [logicalTclk_opResult h, opTclk_tclkOp]

/-- Settles O26, the TCLK operation to level 0. -/
theorem tclkClearFromLaunch : Obligations.TclkClearFromLaunch := by
  intro s h
  obtain ⟨hexec, heffect⟩ := exec_tclkOp_launch false h
  exact ⟨_, hexec, rfl, heffect⟩

/-- Settles O27, the TCLK operation to level 1. -/
theorem tclkSetFromLaunch : Obligations.TclkSetFromLaunch := by
  intro s h
  obtain ⟨hexec, heffect⟩ := exec_tclkOp_launch true h
  exact ⟨_, hexec, rfl, heffect⟩

/-! The frame. -/

/-- R130: the operand register, the accumulator and the loop's index are a shift's. -/
theorem opResult_operands_tclkOp (v : Bit) (s : State) :
    (opResult (tclkOp v) s).opnd = s.opnd ∧ (opResult (tclkOp v) s).acc = s.acc ∧
      (opResult (tclkOp v) s).cycle = s.cycle := by
  simp only [opResult, isShift_tclkOp, Bool.false_eq_true, if_false, and_self]

/-- R150: in `JTAG4` the operation writes one line, and no other field of the block but the trace. -/
theorem opResult_tclkOp_jtag4 (v : Bit) {s : State} (hl : s.cfg.link = .jtag4) :
    opResult (tclkOp v) s = { s with
      pins := opPins (tclkOp v) s, trace := s.trace ++ opEvents (tclkOp v) s,
      responses := s.responses ++ [opResponse (tclkOp v) s], target := { s.target with tclk := opTclk (tclkOp v) s } } := by
  simp only [opResult, opSamples_tclkOp_jtag4 v hl, opLatch_tclkOp_jtag4 v hl, isShift_tclkOp, hl, useAnswers,
    Bool.false_eq_true, if_false]

/-- Settles O28, field by field of the operation's result; in `JTAG4` as one record. -/
theorem tclkFrame : Obligations.TclkFrame := by
  intro i s t hs hexec
  obtain ⟨h, rfl⟩ := (exec_next_iff i s t).1 hexec
  obtain ⟨v, rfl⟩ := exists_eq_tclkOp hs
  obtain ⟨hopnd, hacc, hcycle⟩ := opResult_operands_tclkOp v s
  refine ⟨opResult_cfg _ s, opResult_tap _ s, hopnd, hacc, hcycle, opResult_busy _ s, opResult_constructed _ s, rfl,
    opResult_inputs _ s, List.prefix_append _ _, List.prefix_append _ _, fun hl j => ?sbw, fun hl => ?jtag4⟩
  case sbw => rw [answerAt_opResult, opSamples_tclkOp_sbw v hl]
  case jtag4 => rw [logicalTclk_opResult h, opResult_tclkOp_jtag4 v hl]

/-! The levels (R153), a level that is there already (R154), and the sizes (R155). -/

/-- R153: the six edges of the operation's cycle. -/
theorem edgeLevels_tclkEvents (v : Bit) {s : State} (hl : s.cfg.link = .sbw) (line : Bit) :
    edgeLevels line .output (tclkEvents v s) =
      [⟨false, some s.tclkLatch⟩, ⟨true, some false⟩, ⟨false, some v⟩, ⟨true, some v⟩, ⟨false, none⟩, ⟨true, none⟩] := by
  rw [tclkEvents_sbw v hl, List.append_assoc, List.append_assoc, edgeLevels_slotTmsEvents]
  cases s.cfg.tdoSample <;> rfl

/-- Settles O29: the line rests at the old level, and the cycle's six edges lead to the new one. -/
theorem tclkOperationLevels : Obligations.TclkOperationLevels := by
  intro s v hl h
  refine ⟨opResult (tclkOp v) s, exec_launch h _, h.pins_sbw hl, ?_, opPins_tclkOp_sbw v h hl⟩
  rw [newEvents_opResult, opEvents_tclk, edgeLevels_tclkEvents v hl]

/-- R155, `SBW`: a whole bit-cycle, with one event more where the idle slot holds the line at 1 (R110). -/
theorem tclkEvents_sizes_sbw (v : Bit) {s : State} (hl : s.cfg.link = .sbw) :
    (tclkEvents v s).length = 12 + s.tclkLatch.toNat ∧ (tclkEvents v s).countP isPulse = 3 ∧
      (tclkEvents v s).countP isSample = 1 := by
  rw [tclkEvents_sbw v hl]
  cases s.tclkLatch <;> cases s.cfg.tdoSample <;> exact ⟨rfl, rfl, rfl⟩

/-- R154: the latch is written with the level it has. -/
theorem opLatch_tclkOp_same {s : State} (h : Launch s) : opLatch (tclkOp (logicalTclk s)) s = s.tclkLatch := by
  cases hl : s.cfg.link with
  | jtag4 => exact opLatch_tclkOp_jtag4 _ hl
  | sbw => rw [opLatch_tclkOp_sbw _ hl, h.logicalTclk_sbw hl]

/-- R154: the lines are driven to the levels they have. -/
theorem opPins_tclkOp_same {s : State} (h : Launch s) : opPins (tclkOp (logicalTclk s)) s = s.pins := by
  rcases h.link_pins with ⟨_, tdi, tclk, hp⟩ | ⟨hl, hp⟩
  · have hlevel : logicalTclk s = tclk := by rw [logicalTclk, hp]
    rw [opPins_tclkOp_jtag4 _ hp, hp, hlevel]
  · rw [opPins_tclkOp_sbw _ h hl, h.logicalTclk_sbw hl, hp]

/-- Settles O30: what the operation writes, the latch and the lines, has the level written; its events do not depend on that. -/
theorem tclkRepeatStillEmits : Obligations.TclkRepeatStillEmits := by
  rintro s v h rfl
  obtain ⟨hopnd, hacc, _⟩ := opResult_operands_tclkOp (logicalTclk s) s
  have htrace : (opResult (tclkOp (logicalTclk s)) s).trace = s.trace ++ tclkEvents (logicalTclk s) s := by
    rw [opResult_trace, opEvents_tclk]
  refine ⟨opResult (tclkOp (logicalTclk s)) s, exec_launch h _, opResult_cfg _ s, opResult_tap _ s,
    opLatch_tclkOp_same h, opPins_tclkOp_same h, hopnd, hacc, opResult_busy _ s, opResult_constructed _ s, ?target,
    fun hl => ?jtag4, fun hl => ⟨htrace, ?length⟩⟩
  case target => rw [opResult_target, opTclk_tclkOp, ← h.tclk]
  case jtag4 => rw [htrace, tclkEvents_jtag4 _ hl]
  case length =>
    obtain ⟨hlength, _⟩ := tclkEvents_sizes_sbw (logicalTclk s) hl
    rw [newEvents_opResult, opEvents_tclk, hlength]

/-- Settles O31, by the variant. -/
theorem tclkSizes : Obligations.TclkSizes := by
  intro i s hs h
  obtain ⟨v, rfl⟩ := exists_eq_tclkOp hs
  refine ⟨opResult (tclkOp v) s, exec_launch h _, ?_⟩
  rw [newEvents_opResult, opEvents_tclk]
  cases hl : s.cfg.link with
  | jtag4 => rw [tclkEvents_jtag4 v hl]; rfl
  | sbw =>
    obtain ⟨hlength, hpulses, hsamples⟩ := tclkEvents_sizes_sbw v hl
    rw [hlength, hpulses, hsamples, h.logicalTclk_sbw hl]

/-! The level through shifts (R157). -/

/-- R184: a run of any operations from a launch state completes, in one. -/
theorem execAll_launch (is : List Instr) {s : State} (h : Launch s) : ∃ t, execAll is s = .next t ∧ Launch t := by
  induction is generalizing s with
  | nil => exact ⟨s, rfl, h⟩
  | cons i is ih =>
    obtain ⟨t, hrun, ht⟩ := ih (opResult_launch h i)
    exact ⟨t, (execAll_cons_next_iff i is s t).2 ⟨h, hrun⟩, ht⟩

/-- R24, R135: a run of shifts writes neither the latch nor the logical TCLK level. -/
theorem execAll_shifts_keeps {is : List Instr} (hs : ∀ i ∈ is, isShift i = true) {s t : State}
    (h : execAll is s = .next t) :
    t.cfg = s.cfg ∧ t.tclkLatch = s.tclkLatch ∧ logicalTclk t = logicalTclk s := by
  induction is generalizing s with
  | nil =>
    obtain rfl := (execAll_nil_next_iff s t).1 h
    exact ⟨rfl, rfl, rfl⟩
  | cons i is ih =>
    obtain ⟨hi, his⟩ := List.forall_mem_cons.1 hs
    obtain ⟨hlaunch, hrun⟩ := (execAll_cons_next_iff i is s t).1 h
    obtain ⟨hcfg, hlatch, hlevel⟩ := ih his hrun
    exact ⟨hcfg.trans (opResult_cfg i s), hlatch.trans (opLatch_shift hi s),
      hlevel.trans (logicalTclk_opResult_shift hi hlaunch)⟩

/-- R30: over two runs in turn, the events of the first and then those of the second. -/
theorem newEvents_append {s u t : State} (hsu : s.trace <+: u.trace) (hut : u.trace <+: t.trace) :
    newEvents s t = newEvents s u ++ newEvents u t := by
  apply List.append_cancel_left (as := s.trace)
  rw [trace_append_newEvents (hsu.trans hut), ← List.append_assoc, trace_append_newEvents hsu,
    trace_append_newEvents hut]

/-- The rests after a list of events go on from the level it leaves on the line. -/
theorem restLevels_append (line : Bit) (es fs : List PinEvent) :
    ∃ line', restLevels line (es ++ fs) = restLevels line es ++ restLevels line' fs := by
  induction es generalizing line with
  | nil => exact ⟨line, rfl⟩
  | cons e es ih =>
    cases e with
    | set l b => cases l <;> exact ih _
    | sample l b => exact ih _
    | dir l d =>
      cases d with
      | input => exact ih _
      | output =>
        obtain ⟨line', hrests⟩ := ih line
        exact ⟨line', congrArg (line :: ·) hrests⟩

/-- R113, R157: through a run of shifts the line rests at the latch after every cycle. -/
theorem restLevels_execAll_shifts {is : List Instr} (hs : ∀ i ∈ is, isShift i = true) {s t : State}
    (h : execAll is s = .next t) (hl : s.cfg.link = .sbw) (line : Bit) :
    ∀ l ∈ restLevels line (newEvents s t), l = s.tclkLatch := by
  induction is generalizing s line with
  | nil =>
    obtain rfl := (execAll_nil_next_iff s t).1 h
    simp [newEvents, restLevels]
  | cons i is ih =>
    obtain ⟨hi, his⟩ := List.forall_mem_cons.1 hs
    obtain ⟨_, hrun⟩ := (execAll_cons_next_iff i is s t).1 h
    have hevents : newEvents s t = opEvents i s ++ newEvents (opResult i s) t := by
      rw [newEvents_append (List.prefix_append _ _) (execAll_next hrun).1, newEvents_opResult]
    obtain ⟨line', hrests⟩ := restLevels_append line (opEvents i s) (newEvents (opResult i s) t)
    intro l hmem
    rw [hevents, hrests, List.mem_append] at hmem
    rcases hmem with hmem | hmem
    · rw [restLevels_opEvents hi hl] at hmem
      exact List.eq_of_mem_replicate hmem
    · have hlatch : (opResult i s).tclkLatch = s.tclkLatch := opLatch_shift hi s
      rw [← hlatch]
      exact ih his hrun (by rw [opResult_cfg, hl]) line' l hmem

/-- Settles O32: the operation sets the level, and the shifts keep it, in the registers and at every rest. -/
theorem tclkLevelPersistsThroughShifts : Obligations.TclkLevelPersistsThroughShifts := by
  intro s v is h hs
  obtain ⟨hexec, _, _, hlevel, hsbw, _⟩ := exec_tclkOp_launch v h
  obtain ⟨t, hrun, ht⟩ := execAll_launch is (opResult_launch h (tclkOp v))
  obtain ⟨hcfg, hlatch, hkept⟩ := execAll_shifts_keeps hs hrun
  refine ⟨opResult (tclkOp v) s, t, hexec, hrun, ht, hlevel, hkept.trans hlevel, fun hl => ?_⟩
  have hv : (opResult (tclkOp v) s).tclkLatch = v := (hsbw hl).1
  have hlu : (opResult (tclkOp v) s).cfg.link = .sbw := by rw [opResult_cfg, hl]
  refine ⟨fun l hmem => (restLevels_execAll_shifts hs hrun hlu v l hmem).trans hv, ?_⟩
  rw [ht.pins_sbw (by rw [hcfg, hlu]), hlatch, hv]

end Sys2Proof.Machine
end

section
/-! PROOFS. Resets and the waiting block (spec/60_exceptions.md): what a reset leaves, where it can fall, and a step with no
input. -/

namespace Sys2Proof.Machine

/-- R165: a cut command completes exactly when the command itself would run, and then it is a reset. -/
theorem cutByReset_next_iff (w : CmdWord) (k : Nat) (s t : State) :
    cutByReset w k s = .next t ↔
      ∃ u, issue w s = .next u ∧ t = hardReset (useAnswers ((eventsBefore k s u).countP isSample) s) := by
  unfold cutByReset
  cases issue w s with
  | next u => simp [eq_comm]
  | fault r => simp
  | refused r => simp

/-- R165: a step that serves a reset, alone or in a command, is `hardReset` after the answers the target has given. -/
theorem step_next_of_reset {s t : State} {inp : Input} {rest : List Input} (hin : s.inputs = inp :: rest)
    (hr : inp = .reset ∨ ∃ w k, inp = .resetDuring w k) (h : step s = .next t) :
    ∃ m, t = hardReset (useAnswers m (taken s rest)) := by
  rw [step_cons hin] at h
  rcases hr with rfl | ⟨w, k, rfl⟩
  · cases h
    exact ⟨0, rfl⟩
  · obtain ⟨_, _, ht⟩ := (cutByReset_next_iff w k (taken s rest) t).1 h
    exact ⟨_, ht⟩

/-- R183, R184: a reset leaves the block unconstructed, and so in no launch state. -/
theorem not_launch_hardReset (s : State) : ¬ Launch (hardReset s) := by
  intro h
  have hc : (hardReset s).constructed = true := h.constructed
  rw [hardReset_constructed] at hc
  cases hc

/-- R165: an operation run from a launch state can be cut after any number of its pin events. -/
theorem step_resetDuring_launch {s : State} {i : Instr} {k : Nat} {rest : List Input}
    (hin : s.inputs = .resetDuring (encode i) k :: rest) (h : Launch s) : ∃ t, step s = .next t := by
  have hissue : issue (encode i) (taken s rest) = .next (opResult i (taken s rest)) := by
    rw [issue, decode_encode]
    exact exec_launch (launch_taken.2 h) i
  rw [step_cons hin]
  exact ⟨_, (cutByReset_next_iff _ _ _ _).2 ⟨_, hissue, rfl⟩⟩

/-- Settles O39: every such step ends in `hardReset`, whose fields are the reset values and which is no launch state. -/
theorem resetTakesEveryFieldToItsResetValue : Obligations.ResetTakesEveryFieldToItsResetValue := by
  refine ⟨fun s t inp rest hin hr h => ?_, fun s rest hin => ⟨_, step_reset hin⟩,
    fun s i k rest hin h => step_resetDuring_launch hin h⟩
  obtain ⟨m, rfl⟩ := step_next_of_reset hin hr h
  have hrefused (i : Instr) : ∃ r, exec i (hardReset (useAnswers m (taken s rest))) = .refused r := by
    obtain ⟨r, _, hexec⟩ := exec_not_launch (not_launch_hardReset _) i
    exact ⟨r, hexec⟩
  simp [hrefused]

/-- Settles O45: an empty list of inputs leaves nothing to serve. -/
theorem withoutInputTheBlockWaits : Obligations.WithoutInputTheBlockWaits :=
  fun _ => step_nil

end Sys2Proof.Machine
end

section
/-! PROOFS. The block brought up and run (spec/70_reset_and_hazards.md): construction and acquisition, the launch condition of
every operation (R184), the state the three bring-up inputs reach (R182 to R185), and a run of command words (R186). -/

namespace Sys2Proof.Machine

/-- Settles O34: from a launch state the operation's result is a launch state; from any other state a premise is named. -/
theorem operationsRunFromLaunchStatesOnly : Obligations.OperationsRunFromLaunchStatesOnly := by
  refine fun i s => ⟨fun h => ⟨opResult i s, exec_launch h i, opResult_launch h i⟩, fun h => ?_⟩
  obtain ⟨r, _, hr⟩ := exec_not_launch h i
  exact ⟨r, hr⟩

/-! Construction and acquisition, each alone. -/

/-- Settles O40: the step is `driveIdlePattern`, which writes `idlePins` of the variant and keeps the other fields named. -/
theorem constructionDrivesTheIdlePattern : Obligations.ConstructionDrivesTheIdlePattern :=
  fun _ _ hin hc hw => ⟨_, step_construct hin hc hw, rfl, rfl, rfl, rfl, rfl, rfl, rfl, idlePins_of_sbw, idlePins_of_jtag4⟩

/-- Settles O42: the step is `acquireTarget`, which writes `target` alone. -/
theorem acquisitionChangesOnlyTheTarget : Obligations.AcquisitionChangesOnlyTheTarget :=
  fun _ _ => step_acquire

/-- R183: acquisition does not come before construction. -/
theorem step_acquire_unconstructed {s : State} {rest : List Input} (hin : s.inputs = .acquire :: rest)
    (hb : s.busy = false) (hc : s.constructed = false) : step s = .refused .notConstructed := by
  rw [step_cons hin]
  simp [serve, acquire, hb, hc]

/-- R182: construction comes once after a reset (log entry 11). -/
theorem step_construct_constructed {s : State} {rest : List Input} (hin : s.inputs = .construct :: rest)
    (hc : s.constructed = true) : step s = .refused .alreadyConstructed := by
  rw [step_cons hin]
  simp [serve, construct, hc]

/-! The three in order. -/

/-- R182 to R184: the block after a reset, its construction and the acquisition of its target. -/
def bringUp (s : State) : State := acquireTarget (driveIdlePattern (hardReset s))

/-- From any state the three inputs complete in `bringUp`, and the run goes on from there. -/
theorem run_bringUp {s : State} {rest : List Input} (hin : s.inputs = .reset :: .construct :: .acquire :: rest)
    (hw : s.cfg.wf = true) (k : Nat) :
    Host.Core.run core (k + 3) s = Host.Core.run core k (bringUp (taken s rest)) :=
  calc Host.Core.run core (k + 3) s
    _ = Host.Core.run core (k + 2) (hardReset (taken s (.construct :: .acquire :: rest))) := run_succ (step_reset hin)
    _ = Host.Core.run core (k + 1) (driveIdlePattern (hardReset (taken s (.acquire :: rest)))) :=
      run_succ (step_construct rfl rfl hw)
    _ = Host.Core.run core k (bringUp (taken s rest)) := run_succ (step_acquire rfl rfl rfl)

/-- R33, R34, R37: the idle pattern, whose TCLK level is the latch's reset value. -/
theorem bringUp_pinsIdle (s : State) :
    PinsIdle (bringUp s) ∧ logicalTclk (bringUp s) = s.cfg.tclkLatchReset :=
  pinsIdle_of_idlePins (s := bringUp s) rfl rfl

/-- R184: every premise holds after the three inputs; the binding of the configuration is the one they do not bring about. -/
theorem bringUp_launch {s : State} (hw : s.cfg.wf = true) : Launch (bringUp s) where
  idle := rfl
  tap := rfl
  targetTap := rfl
  constructed := rfl
  pins := (bringUp_pinsIdle s).1
  tclk := rfl
  binding hshared := by simp [(cfg_wf_iff s.cfg).2 hshared] at hw

/-- Settles O41: the three inputs by `bringUp`, and the two inputs that come out of order. -/
theorem resetConstructAcquireReachLaunch : Obligations.ResetConstructAcquireReachLaunch := by
  refine ⟨fun s rest hin hw => ?_, fun _ _ => step_acquire_unconstructed, fun _ _ => step_construct_constructed⟩
  exact ⟨_, run_bringUp hin hw 0, bringUp_launch hw, rfl, rfl, rfl, (bringUp_pinsIdle (taken s rest)).2⟩

/-! A run of command words. -/

/-- R70: the word of an operation, served from a launch state, is the operation performed. -/
theorem step_operation {s : State} {w : CmdWord} {i : Instr} {rest : List Input} (hin : s.inputs = .command w :: rest)
    (hd : decode w = some i) (h : Launch s) : step s = .next (opResult i (taken s rest)) := by
  rw [step_command hin h, hd]

/-- R79, R80: the word of each TCLK operation. -/
theorem decode_tclkOp (v : Bit) : decode (if v then 0x040000#24 else 0x030000#24) = some (tclkOp v) := by
  cases v
  · exact decode_encode .tclkClear
  · exact decode_encode .tclkSet

/-- Settles O43: after `bringUp` the block is in a launch state, and there a TCLK operation writes its own level (R150). -/
theorem tclkOperationEstablishesTheLevel : Obligations.TclkOperationEstablishesTheLevel := by
  intro s v rest hw hin
  have hlaunch : Launch (bringUp (taken s rest)) := bringUp_launch hw
  obtain ⟨_, hresponses, _, hlevel, _⟩ := exec_tclkOp_launch v hlaunch
  exact ⟨opResult (tclkOp v) (bringUp (taken s rest)),
    (run_bringUp hin hw 1).trans (run_succ (step_operation rfl (decode_tclkOp v) (bringUp_launch hw))), hlevel, hresponses⟩

/-- R184: no launch premise reads the responses given. -/
theorem Launch.answered {s : State} (h : Launch s) (rs : List RspWord) : Launch { s with responses := rs } := by
  obtain ⟨hidle, htap, htarget, hup, hpins, htclk, hbinding⟩ := h
  exact ⟨hidle, htap, htarget, hup, hpins, htclk, hbinding⟩

/-- R186: any command word, legal or not, is served from a launch state to a launch state, with one response; the trace only
grows. -/
theorem step_command_launch {s : State} {w : CmdWord} {rest : List Input} (hin : s.inputs = .command w :: rest)
    (h : Launch s) :
    ∃ t, step s = .next t ∧ Launch t ∧ t.inputs = rest ∧ s.trace <+: t.trace ∧ ∃ r, t.responses = s.responses ++ [r] := by
  have htaken : Launch (taken s rest) := launch_taken.2 h
  cases hd : decode w with
  | some i =>
    exact ⟨_, step_operation hin hd h, opResult_launch htaken i, opResult_inputs i _, List.prefix_append _ _, _,
      opResult_responses i _⟩
  | none => exact ⟨_, step_illegal hd hin h.idle, htaken.answered _, rfl, List.prefix_rfl, _, rfl⟩

/-- Settles O48, by induction on the words: each step leaves a launch state for the rest of the run. -/
theorem everyRunOfCommandsEnds : Obligations.EveryRunOfCommandsEnds := by
  intro ws
  induction ws with
  | nil => exact fun s rest h hin => ⟨s, rfl, h, hin, List.prefix_rfl, List.prefix_rfl, rfl⟩
  | cons w ws ih =>
    intro s rest h hin
    obtain ⟨u, hstep, hu, huin, htrace, r, hresp⟩ := step_command_launch hin h
    obtain ⟨t, hrun, ht, htin, htrace', hresp', hlen⟩ := ih u rest hu huin
    have hprefix : s.responses <+: u.responses := hresp ▸ List.prefix_append _ _
    refine ⟨t, (run_succ hstep).trans hrun, ht, htin, htrace.trans htrace', hprefix.trans hresp', ?_⟩
    rw [hlen, hresp, List.length_append, List.length_singleton, List.length_cons]
    omega

end Sys2Proof.Machine
end

section
/-! PROOFS. The words of the spec's decoding table (spec/95_test_vectors.md section 2.1). -/

namespace Sys2Proof

/-- Settles O5: a legal word is the encoding of its operation (R79). Of the illegal words (R75), two have a bit of
`opnd[15:8]` set under a shift of 8 bits, one has an operand under a TCLK operation, and one a reserved opcode. -/
theorem specWordsDecodeAsListed : Obligations.SpecWordsDecodeAsListed := by
  have illegal {w : CmdWord} := (decode_eq_none_iff_fields w).2
  exact ⟨decode_encode (.irShift 0x13#8), decode_encode (.irShift 0xFF#8), decode_encode (.drShift8 0xFF#8),
    decode_encode (.drShift16 0xA55A#16), decode_encode .tclkClear, decode_encode .tclkSet,
    illegal (.inr (.inl (by decide))), illegal (.inr (.inl (by decide))), illegal (.inr (.inr (by decide))),
    illegal (.inl (by decide))⟩

end Sys2Proof
end
